-- ==== Sys2Proof/Word.lean ====
section
/-! DEFINITION. The word types of the core (00_scope.md R11-R13): every value is unsigned. -/

namespace Sys2Proof

/-- One byte: a V register, a memory cell, a timer, an immediate `kk` (R30, R40, R70, R105). -/
abbrev Byte := BitVec 8

/-- Sixteen bits: `I`, `pc`, a return address, an instruction word (R32, R34, R38, R100). -/
abbrev Word := BitVec 16

/-- Four bits: a nibble of an instruction word, the sprite height `n` (R12, R104). -/
abbrev Nibble := BitVec 4

/-- The 12-bit immediate `nnn` of the address form (R102). -/
abbrev Addr12 := BitVec 12

/-- A register selector `x` or `y`: it names one of `V0`..`VF` (R30, R105). -/
abbrev Reg := Fin 16

end Sys2Proof
end

