-- ==== Sys2Proof/Syntax.lean ====
section
/-! DEFINITION. The instructions, one constructor per row of 30_encoding.md R108, in the table's order. The fields
are the table's own: `nnn` (R102), `x` and `kk` (R103), `x`, `y` and `n` (R104). -/

namespace Sys2Proof

/-- An instruction of the core (R108; the docstring of each constructor names its row and rule). -/
inductive Instr where
  /-- Row 1, `00E0` (R230). -/
  | cls
  /-- Row 2, `00EE` (R143). -/
  | ret
  /-- Row 3, `0nnn`: reserved machine call, a no-op (R111, R142). -/
  | sys (nnn : Addr12)
  /-- Row 4, `1nnn` (R144). -/
  | jp (nnn : Addr12)
  /-- Row 5, `2nnn` (R145). -/
  | call (nnn : Addr12)
  /-- Row 6, `3xkk` (R146). -/
  | seImm (x : Reg) (kk : Byte)
  /-- Row 7, `4xkk` (R147). -/
  | sneImm (x : Reg) (kk : Byte)
  /-- Row 8, `5xy0` (R148). -/
  | seReg (x y : Reg)
  /-- Row 9, `6xkk` (R163). -/
  | ldImm (x : Reg) (kk : Byte)
  /-- Row 10, `7xkk` (R164). -/
  | addImm (x : Reg) (kk : Byte)
  /-- Row 11, `8xy0` (R165). -/
  | ldReg (x y : Reg)
  /-- Row 12, `8xy1` (R166). -/
  | orReg (x y : Reg)
  /-- Row 13, `8xy2` (R167). -/
  | andReg (x y : Reg)
  /-- Row 14, `8xy3` (R168). -/
  | xorReg (x y : Reg)
  /-- Row 15, `8xy4` (R169). -/
  | addReg (x y : Reg)
  /-- Row 16, `8xy5` (R170). -/
  | subReg (x y : Reg)
  /-- Row 17, `8xy6` (R171). -/
  | shr (x y : Reg)
  /-- Row 18, `8xy7` (R172). -/
  | subn (x y : Reg)
  /-- Row 19, `8xyE` (R173). -/
  | shl (x y : Reg)
  /-- Row 20, `9xy0` (R149). -/
  | sneReg (x y : Reg)
  /-- Row 21, `Annn` (R201). -/
  | ldI (nnn : Addr12)
  /-- Row 22, `Bnnn` (R150). -/
  | jpV0 (nnn : Addr12)
  /-- Row 23, `Cxkk` (R174). -/
  | rnd (x : Reg) (kk : Byte)
  /-- Row 24, `Dxyn` (R231). -/
  | drw (x y : Reg) (n : Nibble)
  /-- Row 25, `Ex9E` (R251). -/
  | skp (x : Reg)
  /-- Row 26, `ExA1` (R252). -/
  | sknp (x : Reg)
  /-- Row 27, `Fx07` (R253). -/
  | ldVxDt (x : Reg)
  /-- Row 28, `Fx0A` (R254). -/
  | ldVxK (x : Reg)
  /-- Row 29, `Fx15` (R257). -/
  | ldDtVx (x : Reg)
  /-- Row 30, `Fx18` (R258). -/
  | ldStVx (x : Reg)
  /-- Row 31, `Fx1E` (R202). -/
  | addI (x : Reg)
  /-- Row 32, `Fx29` (R203). -/
  | ldF (x : Reg)
  /-- Row 33, `Fx33` (R204). -/
  | ldB (x : Reg)
  /-- Row 34, `Fx55` (R205). -/
  | ldMemVx (x : Reg)
  /-- Row 35, `Fx65` (R206). -/
  | ldVxMem (x : Reg)
  deriving DecidableEq, Repr

end Sys2Proof
end

