-- ==== Sys2Proof/WellFormed.lean ====
section
/-! DEFINITION. Which terms of `Instr` stand for a word of their own row. The operand types already bound every
field, so one check is left: `SYS nnn` is matched only after `00E0` and `00EE` (30_encoding.md R109). -/

namespace Sys2Proof

/-- The words `0nnn` that rows 1 and 2 take before row 3 is tested (R109). -/
def sysReserved (nnn : Addr12) : Bool := nnn == 0x0E0 || nnn == 0x0EE

/-- An instruction is well formed when its word belongs to its own row (R109). -/
def Instr.wellFormed : Instr → Bool
  | .sys nnn => !sysReserved nnn
  | .cls | .ret | .jp _ | .call _ | .seImm _ _ | .sneImm _ _ | .seReg _ _ | .ldImm _ _ | .addImm _ _
  | .ldReg _ _ | .orReg _ _ | .andReg _ _ | .xorReg _ _ | .addReg _ _ | .subReg _ _ | .shr _ _ | .subn _ _
  | .shl _ _ | .sneReg _ _ | .ldI _ | .jpV0 _ | .rnd _ _ | .drw _ _ _ | .skp _ | .sknp _ | .ldVxDt _
  | .ldVxK _ | .ldDtVx _ | .ldStVx _ | .addI _ | .ldF _ | .ldB _ | .ldMemVx _ | .ldVxMem _ => true

end Sys2Proof
end

