-- ==== Sys2Proof/Decode.lean ====
section
/-! DEFINITION. The instruction decoder: the fields of 30_encoding.md R101-R105, the ordered dispatch table of R108,
and the encoder written from the same table. Total on any bytes; what matches no row is rejected by name (R110). -/

namespace Sys2Proof

/-- The four nibbles `(n1, n2, n3, n4)` of an instruction word, the most significant first (R101). -/
def nibbles (inst : Word) : Nibble × Nibble × Nibble × Nibble :=
  (inst.extractLsb' 12 4, inst.extractLsb' 8 4, inst.extractLsb' 4 4, inst.extractLsb' 0 4)

/-- `nnn = inst[11:0]` (R102). -/
def fieldNnn (inst : Word) : Addr12 := inst.extractLsb' 0 12

/-- `x = inst[11:8]` (R103, R104). -/
def fieldX (inst : Word) : Reg := (inst.extractLsb' 8 4).toFin

/-- `y = inst[7:4]` (R104). -/
def fieldY (inst : Word) : Reg := (inst.extractLsb' 4 4).toFin

/-- `n = inst[3:0]` (R104). -/
def fieldN (inst : Word) : Nibble := inst.extractLsb' 0 4

/-- `kk = inst[7:0]` (R103). -/
def fieldKk (inst : Word) : Byte := inst.extractLsb' 0 8

/-- Which argument layout the decoder port is asked for (R106). -/
inductive ArgKind where
  | address
  | registerImmediate
  | registerRegisterNibble
  deriving DecidableEq, Repr

/-- The fields the decoder port answers with (R102-R104, R106). -/
inductive Args where
  | address (nnn : Addr12)
  | registerImmediate (x : Reg) (kk : Byte)
  | registerRegisterNibble (x y : Reg) (n : Nibble)
  deriving DecidableEq, Repr

/-- The second decoder operation, on a word (R106). -/
def argsOf (kind : ArgKind) (inst : Word) : Args :=
  match kind with
  | .address => .address (fieldNnn inst)
  | .registerImmediate => .registerImmediate (fieldX inst) (fieldKk inst)
  | .registerRegisterNibble => .registerRegisterNibble (fieldX inst) (fieldY inst) (fieldN inst)

/-- One row of R108's opcode map: a word belongs to it when `inst & mask == pattern`. -/
structure OpcodeRow where
  pattern : Word
  mask : Word
  make : Word → Instr

/-- A row matches when `inst & mask == match` (R108). -/
def OpcodeRow.matchesWord (r : OpcodeRow) (inst : Word) : Bool := inst &&& r.mask == r.pattern

/-- The mask of `5xy0` and `9xy0`: the low nibble is fixed only when `STRICT_LOW_NIBBLE` is true (R108, R112). -/
def lowNibbleMask (strict : Bool) : Word := if strict then 0xF00F else 0xF000

/-- R108's opcode map, rows 1 to 35 in its order. -/
def opcodeRows (strict : Bool) : List OpcodeRow :=
  [ ⟨0x00E0, 0xFFFF, fun _ => .cls⟩,
    ⟨0x00EE, 0xFFFF, fun _ => .ret⟩,
    ⟨0x0000, 0xF000, fun w => .sys (fieldNnn w)⟩,
    ⟨0x1000, 0xF000, fun w => .jp (fieldNnn w)⟩,
    ⟨0x2000, 0xF000, fun w => .call (fieldNnn w)⟩,
    ⟨0x3000, 0xF000, fun w => .seImm (fieldX w) (fieldKk w)⟩,
    ⟨0x4000, 0xF000, fun w => .sneImm (fieldX w) (fieldKk w)⟩,
    ⟨0x5000, lowNibbleMask strict, fun w => .seReg (fieldX w) (fieldY w)⟩,
    ⟨0x6000, 0xF000, fun w => .ldImm (fieldX w) (fieldKk w)⟩,
    ⟨0x7000, 0xF000, fun w => .addImm (fieldX w) (fieldKk w)⟩ ] ++
  [ ⟨0x8000, 0xF00F, fun w => .ldReg (fieldX w) (fieldY w)⟩,
    ⟨0x8001, 0xF00F, fun w => .orReg (fieldX w) (fieldY w)⟩,
    ⟨0x8002, 0xF00F, fun w => .andReg (fieldX w) (fieldY w)⟩,
    ⟨0x8003, 0xF00F, fun w => .xorReg (fieldX w) (fieldY w)⟩,
    ⟨0x8004, 0xF00F, fun w => .addReg (fieldX w) (fieldY w)⟩,
    ⟨0x8005, 0xF00F, fun w => .subReg (fieldX w) (fieldY w)⟩,
    ⟨0x8006, 0xF00F, fun w => .shr (fieldX w) (fieldY w)⟩,
    ⟨0x8007, 0xF00F, fun w => .subn (fieldX w) (fieldY w)⟩,
    ⟨0x800E, 0xF00F, fun w => .shl (fieldX w) (fieldY w)⟩,
    ⟨0x9000, lowNibbleMask strict, fun w => .sneReg (fieldX w) (fieldY w)⟩ ] ++
  [ ⟨0xA000, 0xF000, fun w => .ldI (fieldNnn w)⟩,
    ⟨0xB000, 0xF000, fun w => .jpV0 (fieldNnn w)⟩,
    ⟨0xC000, 0xF000, fun w => .rnd (fieldX w) (fieldKk w)⟩,
    ⟨0xD000, 0xF000, fun w => .drw (fieldX w) (fieldY w) (fieldN w)⟩,
    ⟨0xE09E, 0xF0FF, fun w => .skp (fieldX w)⟩,
    ⟨0xE0A1, 0xF0FF, fun w => .sknp (fieldX w)⟩ ] ++
  [ ⟨0xF007, 0xF0FF, fun w => .ldVxDt (fieldX w)⟩,
    ⟨0xF00A, 0xF0FF, fun w => .ldVxK (fieldX w)⟩,
    ⟨0xF015, 0xF0FF, fun w => .ldDtVx (fieldX w)⟩,
    ⟨0xF018, 0xF0FF, fun w => .ldStVx (fieldX w)⟩,
    ⟨0xF01E, 0xF0FF, fun w => .addI (fieldX w)⟩,
    ⟨0xF029, 0xF0FF, fun w => .ldF (fieldX w)⟩,
    ⟨0xF033, 0xF0FF, fun w => .ldB (fieldX w)⟩,
    ⟨0xF055, 0xF0FF, fun w => .ldMemVx (fieldX w)⟩,
    ⟨0xF065, 0xF0FF, fun w => .ldVxMem (fieldX w)⟩ ]

/-- Why bytes are no instruction. -/
inductive DecodeError where
  /-- Fewer than the two bytes every instruction has (R100). -/
  | tooShort
  /-- The word matches no row of R108 (R110). -/
  | unimplemented (inst : Word)
  deriving DecidableEq, Repr

/-- `Dispatch(inst)`: the first matching row wins (R108, R109); a word of R110 is rejected by name. -/
def dispatch (strict : Bool) (inst : Word) : Except DecodeError Instr :=
  match (opcodeRows strict).find? (fun r => r.matchesWord inst) with
  | some r => .ok (r.make inst)
  | none => .error (.unimplemented inst)

/-- The word of two bytes in memory order: the first is the high byte (R78). -/
def wordOfBytes (hi lo : Byte) : Word := hi ++ lo

/-- The high byte of a word, at the lower address (R78). -/
def hiByte (inst : Word) : Byte := inst.extractLsb' 8 8

/-- The low byte of a word, at the higher address (R78). -/
def loByte (inst : Word) : Byte := inst.extractLsb' 0 8

/-- Decode the instruction at the head of a byte list, and give the bytes after it (R100). -/
def decodeBytes (strict : Bool) : List Byte → Except DecodeError (Instr × List Byte)
  | hi :: lo :: rest =>
    match dispatch strict (wordOfBytes hi lo) with
    | .ok i => .ok (i, rest)
    | .error e => .error e
  | _ => .error .tooShort

/-! ## The encoder -/

/-- A register selector as its 4-bit field (R103, R104). -/
def regBits (x : Reg) : Nibble := BitVec.ofFin x

/-- `n1 : nnn` (R102, R116). -/
def encAddress (op : Nibble) (nnn : Addr12) : Word := op ++ nnn

/-- `n1 : x : kk` (R103, R116). -/
def encRegImm (op : Nibble) (x : Reg) (kk : Byte) : Word := op ++ (regBits x ++ kk : Addr12)

/-- `n1 : x : y : n` (R104, R116). -/
def encRegReg (op : Nibble) (x y : Reg) (n : Nibble) : Word := op ++ (regBits x ++ (regBits y ++ n : Byte) : Addr12)

/-- The word of an instruction, from R108's patterns and the three forms of R102-R104. -/
def encode : Instr → Word
  | .cls => 0x00E0
  | .ret => 0x00EE
  | .sys nnn => encAddress 0x0 nnn
  | .jp nnn => encAddress 0x1 nnn
  | .call nnn => encAddress 0x2 nnn
  | .seImm x kk => encRegImm 0x3 x kk
  | .sneImm x kk => encRegImm 0x4 x kk
  | .seReg x y => encRegReg 0x5 x y 0x0
  | .ldImm x kk => encRegImm 0x6 x kk
  | .addImm x kk => encRegImm 0x7 x kk
  | .ldReg x y => encRegReg 0x8 x y 0x0
  | .orReg x y => encRegReg 0x8 x y 0x1
  | .andReg x y => encRegReg 0x8 x y 0x2
  | .xorReg x y => encRegReg 0x8 x y 0x3
  | .addReg x y => encRegReg 0x8 x y 0x4
  | .subReg x y => encRegReg 0x8 x y 0x5
  | .shr x y => encRegReg 0x8 x y 0x6
  | .subn x y => encRegReg 0x8 x y 0x7
  | .shl x y => encRegReg 0x8 x y 0xE
  | .sneReg x y => encRegReg 0x9 x y 0x0
  | .ldI nnn => encAddress 0xA nnn
  | .jpV0 nnn => encAddress 0xB nnn
  | .rnd x kk => encRegImm 0xC x kk
  | .drw x y n => encRegReg 0xD x y n
  | .skp x => encRegImm 0xE x 0x9E
  | .sknp x => encRegImm 0xE x 0xA1
  | .ldVxDt x => encRegImm 0xF x 0x07
  | .ldVxK x => encRegImm 0xF x 0x0A
  | .ldDtVx x => encRegImm 0xF x 0x15
  | .ldStVx x => encRegImm 0xF x 0x18
  | .addI x => encRegImm 0xF x 0x1E
  | .ldF x => encRegImm 0xF x 0x29
  | .ldB x => encRegImm 0xF x 0x33
  | .ldMemVx x => encRegImm 0xF x 0x55
  | .ldVxMem x => encRegImm 0xF x 0x65

/-- The bytes of an instruction in memory order (R78). -/
def encodeBytes (i : Instr) : List Byte := [hiByte (encode i), loByte (encode i)]

/-- What the decoder reads from a word given as a number of `nbits` bits (bit 0 its least significant bit, as
spec/opcode_table.json numbers them), laid out as the hardware stores it and decoded under the default
`STRICT_LOW_NIBBLE` (R8). -/
def decodeTableWord (nbits w : Nat) : Option Instr :=
  let inst : Word := BitVec.ofNat 16 (w % 2 ^ nbits)
  match decodeBytes true [hiByte inst, loByte inst] with
  | .ok (i, _) => some i
  | .error _ => none

end Sys2Proof
end

