-- ==== Sys2Proof/Config.lean ====
section
/-! DEFINITION. The implementation parameters of 00_scope.md R8, the default FONT of 20_memory.md R76, and the
one free value, the random port's bytes (60_exceptions.md R316). -/

namespace Sys2Proof

/-- `MEM_SIZE` (R8, R70): addresses 0x000 to 0xFFF exist. -/
def memSize : Nat := 0x1000

/-- `PROG_BASE` (R8): the load address and the reset `pc`. -/
def progBase : Word := 0x200

/-- The longest image that fits between `PROG_BASE` and the end of memory, `0x1000 - 0x200` (R319). -/
def maxImage : Nat := 3584

/-- The font region is `0x000`-`0x04F` (R75). -/
def fontSize : Nat := 80

/-- The parameters a core instance is constructed with, fixed for its life (R8, R43, R350). -/
structure Config where
  /-- `LS_COMPAT`: true restores `I` after the store and restore of registers (R43, R205, R206). -/
  lsCompat : Bool
  /-- `SH_COMPAT`: true makes `Vx` the source of a shift, false `Vy` (R43, R171, R173). -/
  shCompat : Bool
  /-- `STACK_DEPTH`: `some d` is a bound of `d` entries, `none` is `unbounded` (R8, R38, D17). -/
  stackDepth : Option Nat
  /-- `STRICT_LOW_NIBBLE`: whether `5xyN` and `9xyN` with `N` nonzero are unimplemented (R8, R112, D8). -/
  strictLowNibble : Bool
  /-- `FONT`: the 80 bytes at `0x000`-`0x04F` (R8, R76, D4). -/
  font : Vector Byte 80
  deriving DecidableEq, Repr

/-- The default glyphs of R76, digit by digit, top row first (general knowledge by the spec's own mark, D4). -/
def defaultFontBytes : List Byte :=
  [0xF0, 0x90, 0x90, 0x90, 0xF0] ++ [0x20, 0x60, 0x20, 0x20, 0x70] ++
  [0xF0, 0x10, 0xF0, 0x80, 0xF0] ++ [0xF0, 0x10, 0xF0, 0x10, 0xF0] ++
  [0x90, 0x90, 0xF0, 0x10, 0x10] ++ [0xF0, 0x80, 0xF0, 0x10, 0xF0] ++
  [0xF0, 0x80, 0xF0, 0x90, 0xF0] ++ [0xF0, 0x10, 0x20, 0x40, 0x40] ++
  [0xF0, 0x90, 0xF0, 0x90, 0xF0] ++ [0xF0, 0x90, 0xF0, 0x10, 0xF0] ++
  [0xF0, 0x90, 0xF0, 0x90, 0x90] ++ [0xE0, 0x90, 0xE0, 0x90, 0xE0] ++
  [0xF0, 0x80, 0x80, 0x80, 0xF0] ++ [0xE0, 0x90, 0x90, 0x90, 0xE0] ++
  [0xF0, 0x80, 0xF0, 0x80, 0xF0] ++ [0xF0, 0x80, 0xF0, 0x80, 0x80]

/-- `FONT`'s default value (R76). -/
def defaultFont : Vector Byte 80 := ⟨defaultFontBytes.toArray, rfl⟩

/-- The configuration `State.reset` is constructed with. `STACK_DEPTH`, `STRICT_LOW_NIBBLE` and `FONT` take the
defaults of R8. DESIGN CHOICE (log 1), unsafe where a claim rests on it: R8 gives the two compatibility flags no
default, and they are false here, as in the conventions of 95_test_vectors.md section 0. -/
def Config.default : Config where
  lsCompat := false
  shCompat := false
  stackDepth := some 16
  strictLowNibble := true
  font := defaultFont

/-- FREE VALUE (log 2): the byte the random port gives on its `n`-th draw, any of 0-255 (R316, D28, I9). It has no
body, so nothing can be proved of it beyond its type. -/
opaque Config.randomByte : Nat → Byte

end Sys2Proof
end

