-- ==== Sys2Proof/Machine/State.lean ====
section
/-! DEFINITION. The architectural state of 10_state.md as plain data, the fault and refusal reasons, and reset. -/

namespace Sys2Proof.Machine

/-- The causes of 60_exceptions.md R301, each with the recorded `pc_f` (the address of the faulting instruction) and
`info`. All are the spec's own faults: raising one is what the hardware does, so none makes a false claim provable
(safe); the state beside FS after one is the spec's decision (log 4). -/
inductive Fault where
  /-- Code 1. Raised by dispatch on a word of R110; `info` is the word. Safe. -/
  | unimplementedInstruction (pcF : Word) (inst : Word)
  /-- Code 2. Raised by RET on an empty stack; no `info`. Safe. -/
  | stackUnderflow (pcF : Word)
  /-- Code 3. Raised by the fetch, DRW, LD B, LD [I],Vx and LD Vx,[I] on an address at or above 0x1000; `info` is the
  lowest such address. Safe: a spec decision that errs toward unprovable (D9, D10). -/
  | memoryOutOfRange (pcF : Word) (addr : Nat)
  /-- Code 4. Raised by CALL when the stack holds `STACK_DEPTH` entries; no `info`. Safe (D17). -/
  | stackOverflow (pcF : Word)
  /-- Code 5. Raised by SKP and SKNP when `V[x]` is at or above 16; `info` is `V[x]`. Safe (D13). -/
  | keyIndexOutOfRange (pcF : Word) (vx : Byte)
  deriving DecidableEq, Repr

/-- Why an instruction has no meaning. -/
inductive Refusal where
  /-- An arm of `exec` without a meaning yet. No arm of this model answers it. Safe. -/
  | notModelled (mnemonic : String)
  deriving DecidableEq, Repr

/-- Memory: the cells that differ from what an unlisted address reads as (`resetByte`), addresses strictly rising
(R46, R70; `Memory.wf`). -/
abbrev Memory := List Host.Cell

/-- The framebuffer: 32 rows of 64 pixels, `FB[r][c]` (R41). -/
abbrev Frame := Vector (Vector Bool 64) 32

/-- The key-wait latch `KW` (R44). -/
inductive KeyWait where
  | idle
  | waitingForRelease (d : Reg)
  deriving DecidableEq, Repr

/-- The state tuple `(Mem, V, I, pc, Stack, DT, ST, FB, K, KW, FS)` and the constant configuration of 10_state.md,
and the model's own counter of random draws. -/
structure State where
  /-- `Mem` (R46, R70). -/
  mem : Memory
  /-- `V0`..`VF` (R30); `VF` is `v[15]` (R31). -/
  v : Vector Byte 16
  /-- The index register (R32). -/
  i : Word
  /-- The program counter (R34). -/
  pc : Word
  /-- The call stack, the newest entry first (R38). -/
  stack : List Word
  /-- The delay timer (R40). -/
  dt : Byte
  /-- The sound timer (R40). -/
  st : Byte
  /-- The framebuffer (R41). -/
  fb : Frame
  /-- The input latch `K` (R42). -/
  keys : Vector Bool 16
  /-- The key-wait latch (R44). -/
  kw : KeyWait
  /-- The fault status `FS`: `none`, or `some` of the recorded fault (R45). -/
  fs : Option Fault
  /-- The configuration, constant for the life of the instance (R8, R43). -/
  cfg : Config
  /-- The model's own: how many bytes RND has drawn from the random port (log 2; R316). -/
  draws : Nat
  deriving DecidableEq, Repr

/-- Construction, the only reset (70_reset_and_hazards.md R350, R351). Memory lists nothing: an unlisted address
reads as its reset content, FONT or 0 (R71). -/
def State.construct (cfg : Config) : State where
  mem := []
  v := Vector.replicate 16 0
  i := 0
  pc := progBase
  stack := []
  dt := 0
  st := 0
  fb := Vector.replicate 32 (Vector.replicate 64 false)
  keys := Vector.replicate 16 false
  kw := .idle
  fs := none
  cfg := cfg
  draws := 0

/-- The machine right after reset, constructed with `Config.default` (R350, R351; log 1 for the compatibility
flags). -/
def State.reset : State := State.construct Config.default

end Sys2Proof.Machine
end

