-- ==== Sys2Proof/Machine/Ops.lean ====
section
/-! DEFINITION. The named operations over memory, registers, the stack and the framebuffer, the three `pc` update
modes, the instruction fetch, and the raising of a fault. There is no return from a fault (60_exceptions.md R306), so
none stands beside it. -/

namespace Sys2Proof.Machine

/-- What a meaning answers. -/
abbrev Result := Host.Outcome State Fault Refusal

/-! ## Memory (20_memory.md) -/

/-- What an unlisted address reads as: the reset content, FONT at `0x000`-`0x04F` and 0 elsewhere (R71). -/
def resetByte (font : Vector Byte 80) (a : Nat) : Byte := if h : a < 80 then font[a] else 0

/-- The byte a memory holds at an address: the listed one, else the reset content. -/
def memLookup (font : Vector Byte 80) : Memory → Nat → Byte
  | [], a => resetByte font a
  | (b, w) :: rest, a => if a = b then w else memLookup font rest a

/-- Put a cell before the rest, unless it holds what an unlisted address reads as. -/
def consCell (font : Vector Byte 80) (a : Nat) (w : Byte) (rest : Memory) : Memory :=
  if w = resetByte font a then rest else (a, w) :: rest

/-- Set the byte at an address and keep the canonical form. -/
def memStore (font : Vector Byte 80) : Memory → Nat → Byte → Memory
  | [], a, w => consCell font a w []
  | (b, u) :: rest, a, w =>
    if a < b then consCell font a w ((b, u) :: rest)
    else if a = b then consCell font a w rest
    else (b, u) :: memStore font rest a w

/-- The canonical form: addresses strictly rising and inside the address space, and no cell equal to what an unlisted
address reads as. -/
abbrev Memory.wf (font : Vector Byte 80) (m : Memory) : Prop :=
  m.Pairwise (fun c d => c.1 < d.1) ∧ ∀ c ∈ m, c.1 < memSize ∧ c.2 ≠ resetByte font c.1

/-- The byte at an address of the state's memory. -/
def State.byteAt (s : State) (a : Nat) : Byte := memLookup s.cfg.font s.mem a

/-- `MemRead(a, 1)` on the exact address `a`; the error is the out-of-range address (R72, R74). -/
def memRead (s : State) (a : Nat) : Except Nat Byte :=
  if a < memSize then .ok (s.byteAt a) else .error a

/-- `MemWrite(a, 1, w)` on the exact address `a`; the error is the out-of-range address (R73, R74). -/
def memWrite (s : State) (a : Nat) (w : Byte) : Except Nat State :=
  if a < memSize then .ok { s with mem := memStore s.cfg.font s.mem a w } else .error a

/-- Read the `n` bytes from `a` upward, in ascending order; the error is the first, so the lowest, out-of-range
address (R87). -/
def readBytes (s : State) (a : Nat) : Nat → Except Nat (List Byte)
  | 0 => .ok []
  | n + 1 =>
    match memRead s a with
    | .error e => .error e
    | .ok b =>
      match readBytes s (a + 1) n with
      | .error e => .error e
      | .ok bs => .ok (b :: bs)

/-- Write bytes from `a` upward, in ascending order; the error is the lowest out-of-range address, and then nothing is
written because no state is given (R87, R303). -/
def writeBytes (s : State) (a : Nat) : List Byte → Except Nat State
  | [] => .ok s
  | b :: bs =>
    match memWrite s a b with
    | .error e => .error e
    | .ok s' => writeBytes s' (a + 1) bs

/-- Instruction fetch: the byte at `pc` is the high byte, the byte at `pc + 1` (exact) the low one (R78, R80). -/
def fetch (s : State) : Except Nat Word :=
  match memRead s s.pc.toNat with
  | .error a => .error a
  | .ok hi =>
    match memRead s (s.pc.toNat + 1) with
    | .error a => .error a
    | .ok lo => .ok (wordOfBytes hi lo)

/-! ## Registers and the program counter (10_state.md) -/

/-- `V[x]` (R14, R30). -/
def State.getV (s : State) (x : Reg) : Byte := s.v[x]

/-- `V[x] <- b` (R14, R30). -/
def State.setV (s : State) (x : Reg) (b : Byte) : State := { s with v := s.v.set x b }

/-- `VF`, the flag register (R31). -/
def regVF : Reg := 15

/-- `zext_16` of an address immediate (R105). -/
def zextAddr (nnn : Addr12) : Word := nnn.setWidth 16

/-- `zext_16` of a byte (R105). -/
def zextByte (b : Byte) : Word := b.setWidth 16

/-- `advance`: `pc <- pc + 2` (R35; the 16-bit sum is exact wherever a fetch succeeded, R37, log 5). -/
def State.advance (s : State) : State := { s with pc := s.pc + 2 }

/-- `skip`: `pc <- pc + 4` (R35, R140). -/
def State.skip (s : State) : State := { s with pc := s.pc + 4 }

/-- `jump`: `pc <- target` (R35). -/
def State.jump (s : State) (target : Word) : State := { s with pc := target }

/-- A conditional skip: `skip` when the condition holds, else `advance` (R140). -/
def State.skipIf (s : State) (c : Bool) : State := if c then s.skip else s.advance

/-! ## The call stack (R38, R39) -/

/-- Whether a stack of `n` entries takes no further one under a `STACK_DEPTH`; `none` is `unbounded` (R38, R39). -/
def stackFull (depth : Option Nat) (n : Nat) : Bool :=
  match depth with
  | none => false
  | some d => d ≤ n

/-- `push(t)`; `none` when the stack already holds `STACK_DEPTH` entries (R39). -/
def push (s : State) (t : Word) : Option State :=
  if stackFull s.cfg.stackDepth s.stack.length then none else some { s with stack := t :: s.stack }

/-- `pop()`; `none` when the stack is empty (R39). -/
def pop (s : State) : Option (Word × State) :=
  match s.stack with
  | [] => none
  | t :: rest => some (t, { s with stack := rest })

/-! ## The framebuffer (R41, 43_display.md) -/

/-- `FB[r][c]`. -/
def pixel (fb : Frame) (r : Fin 32) (c : Fin 64) : Bool := fb[r][c]

/-- `FB[r][c] <- b`. -/
def setPixel (fb : Frame) (r : Fin 32) (c : Fin 64) (b : Bool) : Frame := fb.set r (fb[r].set c b)

/-- Every pixel unset (R230). -/
def clearFrame : Frame := Vector.replicate 32 (Vector.replicate 64 false)

/-- The framebuffer row of sprite row `r`: `(V[y] + r) mod 32` (R233). -/
def pixelRow (cy : Byte) (r : Nat) : Fin 32 := ⟨(cy.toNat + r) % 32, Nat.mod_lt _ (by decide)⟩

/-- The framebuffer column of sprite column `c`: `(V[x] + c) mod 64` (R233). -/
def pixelCol (cx : Byte) (c : Nat) : Fin 64 := ⟨(cx.toNat + c) % 64, Nat.mod_lt _ (by decide)⟩

/-- Bit `7 - c` of a sprite byte is column `c` of its row (R232). -/
def spriteBit (row : Byte) (c : Nat) : Bool := row.getLsbD (7 - c)

/-- A framebuffer being drawn on, and whether a set pixel has been turned off so far (R231, R234). -/
structure Canvas where
  fb : Frame
  hit : Bool
  deriving DecidableEq, Repr

/-- One pixel of a draw: a set pixel under a set sprite bit is a collision; the pixel is XORed with the bit (R231). -/
def drawPixel (cv : Canvas) (r : Fin 32) (c : Fin 64) (b : Bool) : Canvas where
  fb := setPixel cv.fb r c (pixel cv.fb r c ^^ b)
  hit := cv.hit || (b && pixel cv.fb r c)

/-- The 8 columns of one sprite row, left to right (R231). -/
def drawRow (cv : Canvas) (r : Fin 32) (cx : Byte) (row : Byte) : Canvas :=
  [0, 1, 2, 3, 4, 5, 6, 7].foldl (fun acc c => drawPixel acc r (pixelCol cx c) (spriteBit row c)) cv

/-- The sprite rows from row number `k` on, top to bottom (R231). -/
def drawRows (cv : Canvas) (cx cy : Byte) (k : Nat) : List Byte → Canvas
  | [] => cv
  | row :: rest => drawRows (drawRow cv (pixelRow cy k) cx row) cx cy (k + 1) rest

/-! ## Faults (60_exceptions.md) -/

/-- TAKING A FAULT: FS records the cause, `pc_f` and the info; nothing else changes, `pc` stays, control goes to no
handler (R301-R303, R305). Whoever raises a fault passes `s.pc` as its `pc_f` (R301). -/
def raiseFault (f : Fault) (s : State) : Result := .next { s with fs := some f }

end Sys2Proof.Machine
end

