-- ==== Sys2Proof/Machine/Operands.lean ====
section
/-! DEFINITION. The operand forms: the effective address, the shift source, the register range, the BCD digits, the
key index and the lowest pressed key. -/

namespace Sys2Proof.Machine

/-- The effective address of the `k`-th byte an instruction touches, `I + k`, exact (42_index_memory.md R200, R74). -/
def effAddr (s : State) (k : Nat) : Nat := s.i.toNat + k

/-- The source of a shift: `V[x]` when `SH_COMPAT` is true, else `V[y]` (R43, R171, R173). -/
def shiftSource (s : State) (x y : Reg) : Byte := if s.cfg.shCompat then s.getV x else s.getV y

/-- `V0`..`Vx`, in order (R205). -/
def regRange (s : State) (x : Reg) : List Byte := s.v.toList.take (x.val + 1)

/-- Copy bytes into the registers from number `k` on, in order (R206). -/
def loadRegs (s : State) (k : Nat) : List Byte → State
  | [] => s
  | b :: bs => loadRegs (if h : k < 16 then s.setV ⟨k, h⟩ b else s) (k + 1) bs

/-- `I` after a store or restore of `V0`..`Vx`: unchanged when `LS_COMPAT` is true, else `I + x + 1`, which fits
16 bits whenever the accesses succeeded (R43, R200, R205). -/
def indexAfter (s : State) (x : Reg) : Word :=
  if s.cfg.lsCompat then s.i else s.i + BitVec.ofNat 16 (x.val + 1)

/-- The hundreds, tens and ones digits of a byte (R79, R204). -/
def bcdDigits (b : Byte) : List Byte :=
  [BitVec.ofNat 8 (b.toNat / 100), BitVec.ofNat 8 (b.toNat / 10 % 10), BitVec.ofNat 8 (b.toNat % 10)]

/-- The font glyph address `V[x] * 5`, in 16 bits from all 8 bits of `V[x]` (R77, R203, D12). -/
def glyphAddr (b : Byte) : Word := zextByte b * 5

/-- The key a key-test instruction names: the value of `V[x]`, or `none` at or above 16 (R250). -/
def keyIndex (b : Byte) : Option (Fin 16) := if h : b.toNat < 16 then some ⟨b.toNat, h⟩ else none

/-- `min { k | K[k] == 1 }`, or `none` when every key is released (R254, R255). -/
def lowestKey (keys : Vector Bool 16) : Option (Fin 16) := (List.finRange 16).find? (fun k => keys[k])

/-- A key number as the byte a register receives (R254). -/
def keyByte (k : Fin 16) : Byte := BitVec.ofNat 8 k.val

/-- Whether some key is pressed (R254, R256). -/
def anyKey (keys : Vector Bool 16) : Bool := keys.any (fun b => b)

end Sys2Proof.Machine
end

