-- ==== Sys2Proof/Machine/Flags.lean ====
section
/-! DEFINITION. Every flag computation: what VF receives (10_state.md R31), and the order of the result and flag
writes (41_alu.md R162). -/

namespace Sys2Proof.Machine

/-- A condition as the flag byte 1 or 0. -/
def flagByte (c : Bool) : Byte := if c then 1 else 0

/-- Carry of `a + b`: the exact sum is above 255 (R160, R169). -/
def carryFlag (a b : Byte) : Byte := flagByte (decide (a.toNat + b.toNat > 255))

/-- Not-borrow of `a - b`: 0 when `a < b` (R160, R170). -/
def notBorrowFlag (a b : Byte) : Byte := flagByte (decide (¬ a.toNat < b.toNat))

/-- Borrow of `a - b`: 1 when `a < b` (R160; SUBN's polarity in R172, C9). -/
def borrowFlag (a b : Byte) : Byte := flagByte (decide (a.toNat < b.toNat))

/-- The bit a right shift by one shifts out, `src[0]` (R171). -/
def shiftedOutRight (src : Byte) : Byte := flagByte (src.getLsbD 0)

/-- The bit a left shift by one shifts out, `src[7]` (R173). -/
def shiftedOutLeft (src : Byte) : Byte := flagByte (src.getLsbD 7)

/-- The collision flag of a draw (R231, R234). -/
def collisionFlag (hit : Bool) : Byte := flagByte hit

/-- `V[x]` receives the result first and `VF` the flag second, so with `x = F` the flag stays (R162, D14). -/
def writeResultFlag (s : State) (x : Reg) (result flag : Byte) : State := (s.setV x result).setV regVF flag

end Sys2Proof.Machine
end

