-- ==== Sys2Proof/Machine/Alu.lean ====
section
/-! DEFINITION. The ALU, 41_alu.md. Every operand is read from the state before the instruction (R161); sums and
differences wrap modulo 256 (R160); each meaning ends with `advance`. -/

namespace Sys2Proof.Machine

/-- `LD Vx, kk` (R163). -/
def execLdImm (x : Reg) (kk : Byte) (s : State) : Result := .next (s.setV x kk).advance

/-- `ADD Vx, kk`: no flag (R164). -/
def execAddImm (x : Reg) (kk : Byte) (s : State) : Result := .next (s.setV x (s.getV x + kk)).advance

/-- `LD Vx, Vy` (R165). -/
def execLdReg (x y : Reg) (s : State) : Result := .next (s.setV x (s.getV y)).advance

/-- `OR Vx, Vy`: no flag (R166). -/
def execOr (x y : Reg) (s : State) : Result := .next (s.setV x (s.getV x ||| s.getV y)).advance

/-- `AND Vx, Vy`: no flag (R167). -/
def execAnd (x y : Reg) (s : State) : Result := .next (s.setV x (s.getV x &&& s.getV y)).advance

/-- `XOR Vx, Vy`: no flag (R168). -/
def execXor (x y : Reg) (s : State) : Result := .next (s.setV x (s.getV x ^^^ s.getV y)).advance

/-- `ADD Vx, Vy`: VF is the carry (R169). -/
def execAdd (x y : Reg) (s : State) : Result :=
  .next (writeResultFlag s x (s.getV x + s.getV y) (carryFlag (s.getV x) (s.getV y))).advance

/-- `SUB Vx, Vy`: VF is the not-borrow of `Vx - Vy` (R170). -/
def execSub (x y : Reg) (s : State) : Result :=
  .next (writeResultFlag s x (s.getV x - s.getV y) (notBorrowFlag (s.getV x) (s.getV y))).advance

/-- `SHR Vx {, Vy}`: VF is bit 0 of the source (R171). -/
def execShr (x y : Reg) (s : State) : Result :=
  .next (writeResultFlag s x (shiftSource s x y >>> 1) (shiftedOutRight (shiftSource s x y))).advance

/-- `SUBN Vx, Vy`: VF is the borrow of `Vy - Vx`, the document's polarity (R172, C9). -/
def execSubn (x y : Reg) (s : State) : Result :=
  .next (writeResultFlag s x (s.getV y - s.getV x) (borrowFlag (s.getV y) (s.getV x))).advance

/-- `SHL Vx {, Vy}`: VF is bit 7 of the source (R173). -/
def execShl (x y : Reg) (s : State) : Result :=
  .next (writeResultFlag s x (shiftSource s x y <<< 1) (shiftedOutLeft (shiftSource s x y))).advance

/-- RND's effect for a drawn byte `r`: `V[x] <- r & kk`, and one byte has been consumed whatever `kk` is
(R174, R316, D28). -/
def rndWith (r : Byte) (x : Reg) (kk : Byte) (s : State) : State :=
  ({ s with draws := s.draws + 1 }.setV x (r &&& kk)).advance

/-- `RND Vx, kk`: the byte drawn is the free value of this draw (R174, R316; log 2). -/
def execRnd (x : Reg) (kk : Byte) (s : State) : Result := .next (rndWith (Config.randomByte s.draws) x kk s)

end Sys2Proof.Machine
end

