-- ==== Sys2Proof/Machine/Control.lean ====
section
/-! DEFINITION. Control flow, 40_control_flow.md. `pc` is the address of the instruction being executed (R34). -/

namespace Sys2Proof.Machine

/-- `SYS nnn`: a no-op, `advance` (R111, R142, C2). -/
def execSys (_nnn : Addr12) (s : State) : Result := .next s.advance

/-- `RET`: `pc <- pop()`, no further advance; an empty stack is StackUnderflow (R143). -/
def execRet (s : State) : Result :=
  match pop s with
  | none => raiseFault (.stackUnderflow s.pc) s
  | some (t, s') => .next (s'.jump t)

/-- `JP nnn` (R144). -/
def execJp (nnn : Addr12) (s : State) : Result := .next (s.jump (zextAddr nnn))

/-- `CALL nnn`: `push(pc + 2); pc <- nnn`; a full stack is StackOverflow (R145, C1). -/
def execCall (nnn : Addr12) (s : State) : Result :=
  match push s (s.pc + 2) with
  | none => raiseFault (.stackOverflow s.pc) s
  | some s' => .next (s'.jump (zextAddr nnn))

/-- `SE Vx, kk` (R146). -/
def execSeImm (x : Reg) (kk : Byte) (s : State) : Result := .next (s.skipIf (s.getV x == kk))

/-- `SNE Vx, kk` (R147). -/
def execSneImm (x : Reg) (kk : Byte) (s : State) : Result := .next (s.skipIf (s.getV x != kk))

/-- `SE Vx, Vy` (R148). -/
def execSeReg (x y : Reg) (s : State) : Result := .next (s.skipIf (s.getV x == s.getV y))

/-- `SNE Vx, Vy` (R149). -/
def execSneReg (x y : Reg) (s : State) : Result := .next (s.skipIf (s.getV x != s.getV y))

/-- `JP V0, nnn`: `pc <- nnn + V0`, the exact sum; the offset register is always `V0` (R150). -/
def execJpV0 (nnn : Addr12) (s : State) : Result := .next (s.jump (zextAddr nnn + zextByte (s.getV 0)))

end Sys2Proof.Machine
end

