-- ==== Sys2Proof/Machine/Display.lean ====
section
/-! DEFINITION. The framebuffer write logic, 43_display.md. -/

namespace Sys2Proof.Machine

/-- `CLS`: every pixel unset; VF is not written (R230). -/
def execCls (s : State) : Result := .next { s with fb := clearFrame }.advance

/-- DRW's effect once its rows are read: the coordinates are the registers before VF is written (D16), the pixels are
XORed, and VF is the collision (R231-R234). -/
def drawSprite (x y : Reg) (rows : List Byte) (s : State) : State :=
  let cv := drawRows ⟨s.fb, false⟩ (s.getV x) (s.getV y) 0 rows
  ({ s with fb := cv.fb }.setV regVF (collisionFlag cv.hit)).advance

/-- `DRW Vx, Vy, n`: all `n` row bytes are read before any write; one out of range raises MemoryOutOfRange and neither
FB nor VF changes (R231). -/
def execDrw (x y : Reg) (n : Nibble) (s : State) : Result :=
  match readBytes s (effAddr s 0) n.toNat with
  | .error a => raiseFault (.memoryOutOfRange s.pc a) s
  | .ok rows => .next (drawSprite x y rows s)

end Sys2Proof.Machine
end

