-- ==== Sys2Proof/Machine/IndexMemory.lean ====
section
/-! DEFINITION. The index register and memory instructions, 42_index_memory.md. An access at or above 0x1000 raises
MemoryOutOfRange with the lowest such address, and nothing is written (R200, R303). -/

namespace Sys2Proof.Machine

/-- `LD I, nnn` (R201). -/
def execLdI (nnn : Addr12) (s : State) : Result := .next { s with i := zextAddr nnn }.advance

/-- `ADD I, Vx`: modulo 65536, no flag, no range check (R202). -/
def execAddI (x : Reg) (s : State) : Result := .next { s with i := s.i + zextByte (s.getV x) }.advance

/-- `LD F, Vx`: `I <- V[x] * 5`, unmasked (R203). -/
def execLdF (x : Reg) (s : State) : Result := .next { s with i := glyphAddr (s.getV x) }.advance

/-- `LD B, Vx`: the hundreds, tens and ones digits at `I`, `I + 1`, `I + 2` (R204). -/
def execLdB (x : Reg) (s : State) : Result :=
  match writeBytes s (effAddr s 0) (bcdDigits (s.getV x)) with
  | .error a => raiseFault (.memoryOutOfRange s.pc a) s
  | .ok s' => .next s'.advance

/-- `LD [I], Vx`: store `V0`..`Vx`, then update `I` unless `LS_COMPAT` (R205). -/
def execLdMemVx (x : Reg) (s : State) : Result :=
  match writeBytes s (effAddr s 0) (regRange s x) with
  | .error a => raiseFault (.memoryOutOfRange s.pc a) s
  | .ok s' => .next { s' with i := indexAfter s x }.advance

/-- `LD Vx, [I]`: load `V0`..`Vx`, then update `I` unless `LS_COMPAT` (R206). -/
def execLdVxMem (x : Reg) (s : State) : Result :=
  match readBytes s (effAddr s 0) (x.val + 1) with
  | .error a => raiseFault (.memoryOutOfRange s.pc a) s
  | .ok bytes => .next { loadRegs s 0 bytes with i := indexAfter s x }.advance

end Sys2Proof.Machine
end

