-- ==== Sys2Proof/Machine/InputTimers.lean ====
section
/-! DEFINITION. Key input, key-wait and timers, 44_input_timers.md, and the timer countdown unit's tick. -/

namespace Sys2Proof.Machine

/-- `SKP Vx`: skip if key `V[x]` is down; `V[x]` at or above 16 is KeyIndexOutOfRange (R250, R251). -/
def execSkp (x : Reg) (s : State) : Result :=
  match keyIndex (s.getV x) with
  | none => raiseFault (.keyIndexOutOfRange s.pc (s.getV x)) s
  | some k => .next (s.skipIf s.keys[k])

/-- `SKNP Vx`: skip if key `V[x]` is up; `V[x]` at or above 16 is KeyIndexOutOfRange (R250, R252). -/
def execSknp (x : Reg) (s : State) : Result :=
  match keyIndex (s.getV x) with
  | none => raiseFault (.keyIndexOutOfRange s.pc (s.getV x)) s
  | some k => .next (s.skipIf (!s.keys[k]))

/-- `LD Vx, DT` (R253). -/
def execLdVxDt (x : Reg) (s : State) : Result := .next (s.setV x s.dt).advance

/-- `LD Vx, K`: from Idle a pressed key is recorded and the latch set; while waiting, the step at which every key is
released completes the instruction; otherwise `pc` stays (R254-R256, D25, D29). -/
def execLdVxK (x : Reg) (s : State) : Result :=
  match s.kw with
  | .idle =>
    match lowestKey s.keys with
    | some k => .next ({ s.setV x (keyByte k) with kw := .waitingForRelease x }.jump s.pc)
    | none => .next (s.jump s.pc)
  | .waitingForRelease _ =>
    if anyKey s.keys then .next (s.jump s.pc) else .next { s with kw := .idle }.advance

/-- `LD DT, Vx` (R257). -/
def execLdDtVx (x : Reg) (s : State) : Result := .next { s with dt := s.getV x }.advance

/-- `LD ST, Vx` (R258). -/
def execLdStVx (x : Reg) (s : State) : Result := .next { s with st := s.getV x }.advance

/-- A saturating decrement by one (R259, R260, D18). -/
def decTimer (t : Byte) : Byte := if t = 0 then 0 else t - 1

/-- The tick: both timers at once, and nothing once FS is not None (R259, R302, D30, D32). -/
def tick (s : State) : State :=
  match s.fs with
  | none => { s with dt := decTimer s.dt, st := decTimer s.st }
  | some _ => s

end Sys2Proof.Machine
end

