-- ==== Sys2Proof/Machine/Step.lean ====
section
/-! DEFINITION. The execute-one-instruction operation (30_encoding.md R107). -/

namespace Sys2Proof.Machine

/-- One step (R107): a faulted core answers its sticky fault and changes nothing (R302); else fetch, then dispatch,
then execute, each of which may raise a fault (R304). A step that raises one answers the state with FS written; its
port result is read from that FS (log 3). -/
def step (s : State) : Host.Outcome State Fault Refusal :=
  match s.fs with
  | some f => .fault f
  | none =>
    match fetch s with
    | .error a => raiseFault (.memoryOutOfRange s.pc a) s
    | .ok inst =>
      match dispatch s.cfg.strictLowNibble inst with
      | .error _ => raiseFault (.unimplementedInstruction s.pc inst) s
      | .ok i => exec i s

/-- The state with an instruction word stored where `step` fetches next, FS cleared if a fault stood there, and `pc`
brought to `PROG_BASE` where no fetch could succeed (log 6). No operation of the core does this: it stands for the
program load (R352). -/
def State.withFetchWord (s : State) (nbits w : Nat) : State :=
  let inst : Word := BitVec.ofNat 16 (w % 2 ^ nbits)
  let pc : Word := if s.pc.toNat + 1 < memSize then s.pc else progBase
  let mem := memStore s.cfg.font s.mem pc.toNat (hiByte inst)
  { s with mem := memStore s.cfg.font mem (pc.toNat + 1) (loByte inst), pc := pc, fs := none }

end Sys2Proof.Machine
end

