-- ==== Sys2Proof/Machine/Ports.lean ====
section
/-! DEFINITION. The core's host interface, the table of 60_exceptions.md R318: what each port does, what it refuses
(R319), the order check of R354, and any interleaving of host operations (R361). -/

namespace Sys2Proof.Machine

/-- Why a port operation is refused; a refused operation changes nothing (R319). -/
inductive PortRefusal where
  /-- `set_key` with an index at or above 16 (R319, D31). -/
  | keyOutOfDomain (k : Nat)
  /-- `load` of an image longer than 3584 bytes (R319, D26). -/
  | imageTooLong (length : Nat)
  /-- `load` at another time than once, right after construct (R92, R318, R354). -/
  | alreadyLoaded
  /-- `step` before the load (R354). -/
  | notLoaded
  /-- `set_key` or `load` once FS is not None: the host may then only read or discard (R306; log 9). -/
  | coreFaulted
  /-- An instruction without a meaning; `step` never answers so. -/
  | noMeaning
  deriving DecidableEq, Repr

/-- What a port operation answers: `Ok`, `Fault(code, pc_f, info)` or a refusal (R317, R319). -/
inductive Reply where
  | ok
  | fault (f : Fault)
  | refused (r : PortRefusal)
  deriving DecidableEq, Repr

/-- The fault's code, 1 to 5 (R301). -/
def faultCode : Fault → Nat
  | .unimplementedInstruction _ _ => 1
  | .stackUnderflow _ => 2
  | .memoryOutOfRange _ _ => 3
  | .stackOverflow _ => 4
  | .keyIndexOutOfRange _ _ => 5

/-- `pc_f`, the address of the faulting instruction (R301). -/
def faultPc : Fault → Word
  | .unimplementedInstruction p _ | .stackUnderflow p | .memoryOutOfRange p _ | .stackOverflow p
  | .keyIndexOutOfRange p _ => p

/-- The recorded `info`, if the cause has one (R301). -/
def faultInfo : Fault → Option Nat
  | .unimplementedInstruction _ inst => some inst.toNat
  | .memoryOutOfRange _ a => some a
  | .keyIndexOutOfRange _ b => some b.toNat
  | .stackUnderflow _ | .stackOverflow _ => none

/-- What the step port answers beside the state, read from the state's FS (R107, R317). -/
def replyOfStatus (fs : Option Fault) : Reply :=
  match fs with
  | none => .ok
  | some f => .fault f

/-- The step port: the state after one step, and `Ok` or the fault (R107, R317). -/
def stepPort (s : State) : State × Reply :=
  match step s with
  | .next t => (t, replyOfStatus t.fs)
  | .fault f => (s, .fault f)
  | .refused _ => (s, .refused .noMeaning)

/-- A host write: refused on a faulted core, whose state the host may only read (R306; log 9). -/
def hostWrite (s : State) (write : Except PortRefusal State) : Except PortRefusal State :=
  match s.fs with
  | none => write
  | some _ => .error .coreFaulted

/-- `set_key(k, b)`: `K[k] <- b` for `0 <= k <= 15`, refused otherwise and on a faulted core (R306, R312, R318,
R319). -/
def setKey (k : Nat) (b : Bool) (s : State) : Except PortRefusal State :=
  hostWrite s (if h : k < 16 then .ok { s with keys := s.keys.set k b } else .error (.keyOutOfDomain k))

/-- Copy bytes into memory from an address on (R352). -/
def copyImage (font : Vector Byte 80) (m : Memory) (a : Nat) : List Byte → Memory
  | [] => m
  | b :: bs => copyImage font (memStore font m a b) (a + 1) bs

/-- `load(image)`: `Mem[0x200 + i] <- image[i]`; an image over 3584 bytes is refused, and any on a
faulted core (R306, R319, R352). -/
def loadImage (image : List Byte) (s : State) : Except PortRefusal State :=
  hostWrite s
    (if image.length ≤ maxImage then .ok { s with mem := copyImage s.cfg.font s.mem progBase.toNat image }
     else .error (.imageTooLong image.length))

/-- The framebuffer port: 2048 booleans, row-major, 64 wide (R235, R318). -/
def framebufferBits (s : State) : List Bool := s.fb.toList.flatMap (fun row => row.toList)

/-- The two bytes at an address as a word, or `none` (`OutOfRange`) when `a + 1 >= 0x1000` (R106, D27). -/
def wordAt (s : State) (a : Nat) : Option Word :=
  if a + 1 < memSize then some (wordOfBytes (s.byteAt a) (s.byteAt (a + 1))) else none

/-- The decoder port's first operation, `nibbles(a)` (R101, R106). -/
def nibblesPort (s : State) (a : Nat) : Option (Nibble × Nibble × Nibble × Nibble) := (wordAt s a).map nibbles

/-- The decoder port's second operation, `args(kind, a)` (R102-R104, R106). -/
def argsPort (kind : ArgKind) (s : State) (a : Nat) : Option Args := (wordAt s a).map (argsOf kind)

/-! ## A whole run, as the host drives it -/

/-- Where an instance is in the boot sequence (R354; log 10); no state of the core (R47). -/
inductive Phase where
  | constructed
  | loaded
  deriving DecidableEq, Repr

/-- A core and its phase. -/
structure Instance where
  core : State
  phase : Phase
  deriving DecidableEq, Repr

/-- The host operations that can change an instance (R318). -/
inductive HostOp where
  | load (image : List Byte)
  | step
  | tick
  | setKey (k : Nat) (b : Bool)
  deriving DecidableEq, Repr

/-- `construct` (R318, R350). -/
def Instance.construct (cfg : Config) : Instance := ⟨State.construct cfg, .constructed⟩

/-- One host operation and its answer (R317-R319, R354). -/
def hostOp (op : HostOp) (n : Instance) : Instance × Reply :=
  match op with
  | .load image =>
    match n.phase with
    | .loaded => (n, .refused .alreadyLoaded)
    | .constructed =>
      match loadImage image n.core with
      | .ok t => (⟨t, .loaded⟩, .ok)
      | .error r => (n, .refused r)
  | .step =>
    match n.phase with
    | .constructed => (n, .refused .notLoaded)
    | .loaded => (⟨(stepPort n.core).1, .loaded⟩, (stepPort n.core).2)
  | .tick => (⟨tick n.core, n.phase⟩, .ok)
  | .setKey k b =>
    match setKey k b n.core with
    | .ok t => (⟨t, n.phase⟩, .ok)
    | .error r => (n, .refused r)

/-- Any sequence of host operations, in the host's order (R86, R361). -/
def runOps : List HostOp → Instance → Instance
  | [], n => n
  | op :: ops, n => runOps ops (hostOp op n).1

end Sys2Proof.Machine
end

