-- ==== Sys2Proof/Safety.lean ====
section
/-! DEFINITION. What counts as a safe run, and the invariant of every reachable state. -/

namespace Sys2Proof.Machine

/-- A run of `n` steps in which no step raises a fault: FS stays None (60_exceptions.md R302, R320). -/
def SafeFor : Nat → State → Prop
  | 0, s => s.fs = none
  | n + 1, s => s.fs = none ∧ ∀ t, step s = .next t → SafeFor n t

/-- No stack entry is above `0xFFE + 2`, and the stack respects `STACK_DEPTH` (10_state.md R37, R38). -/
abbrev StackInv (s : State) : Prop :=
  (∀ a ∈ s.stack, a.toNat ≤ 0x1000) ∧ (∀ d ∈ s.cfg.stackDepth, s.stack.length ≤ d)

/-- The invariant of reachable states: memory is canonical, the stack is as R37 and R38 say, and `pc` is at most
`0x10FE` (R37). -/
abbrev Inv (s : State) : Prop :=
  Memory.wf s.cfg.font s.mem ∧ StackInv s ∧ s.pc.toNat ≤ 0x10FE

end Sys2Proof.Machine
end

