-- ==== Sys2Proof/Certificates/Slice0/Obligations.lean ====
section
/-! DEFINITION. The statements for the provers, each named after what it states; the rule it follows stands in its
docstring. Helpers first: the parts of a state for frames, and the spec's own tables in closed form. -/

namespace Sys2Proof.Cert

open Sys2Proof.Machine

/-- A part of the state that a frame speaks of: one register, one byte of memory, or a whole special register. -/
inductive Part where
  | byte (a : Nat)
  | v (x : Reg)
  | i | pc | stack | dt | st | fb | keys | kw | fs | cfg | draws
  deriving DecidableEq, Repr

/-- The part holds the same value in both states; memory is read byte by byte. -/
def Unchanged (p : Part) (s t : State) : Prop :=
  match p with
  | .byte a => t.byteAt a = s.byteAt a
  | .v x => t.getV x = s.getV x
  | .i => t.i = s.i
  | .pc => t.pc = s.pc
  | .stack => t.stack = s.stack
  | .dt => t.dt = s.dt
  | .st => t.st = s.st
  | .fb => t.fb = s.fb
  | .keys => t.keys = s.keys
  | .kw => t.kw = s.kw
  | .fs => t.fs = s.fs
  | .cfg => t.cfg = s.cfg
  | .draws => t.draws = s.draws

/-- THE FRAME: every part outside the list is unchanged. -/
def ChangesOnly (written : List Part) (s t : State) : Prop := ∀ p, p ∉ written → Unchanged p s t

/-- The `n` bytes of memory from the effective address of offset 0 upward (R200). -/
def storedBytes (s : State) (n : Nat) : List Part := (List.range n).map (fun k => .byte (effAddr s k))

/-- The parts an instruction may write when it raises no fault, read off the rules of files 40 to 44. -/
def mayWrite (s : State) : Instr → List Part
  | .cls => [.fb, .pc]
  | .ret | .call _ => [.stack, .pc]
  | .sys _ | .jp _ | .jpV0 _ | .seImm _ _ | .sneImm _ _ | .seReg _ _ | .sneReg _ _ | .skp _ | .sknp _ => [.pc]
  | .ldImm x _ | .addImm x _ | .ldReg x _ | .orReg x _ | .andReg x _ | .xorReg x _ | .ldVxDt x => [.v x, .pc]
  | .addReg x _ | .subReg x _ | .shr x _ | .subn x _ | .shl x _ => [.v x, .v regVF, .pc]
  | .rnd x _ => [.v x, .draws, .pc]
  | .ldI _ | .addI _ | .ldF _ => [.i, .pc]
  | .drw _ _ _ => [.fb, .v regVF, .pc]
  | .ldVxK x => [.v x, .kw, .pc]
  | .ldDtVx _ => [.dt, .pc]
  | .ldStVx _ => [.st, .pc]
  | .ldB _ => .pc :: storedBytes s 3
  | .ldMemVx x => if s.cfg.lsCompat then .pc :: storedBytes s (x.val + 1) else .i :: .pc :: storedBytes s (x.val + 1)
  | .ldVxMem x =>
    (if s.cfg.lsCompat then [.pc] else [.i, .pc]) ++ ((List.finRange 16).filter (fun z => z ≤ x)).map Part.v

/-- The lowest out-of-range address of `n` bytes from `a` upward, in closed form (R204, R205, R231, R301). -/
def rangeFault (a n : Nat) : Option Nat := if n ≥ 1 ∧ a + n - 1 ≥ 0x1000 then some (max a 0x1000) else none

/-- The fault an instruction raises of its own, by R301's table. -/
def instrFault (s : State) : Instr → Option Fault
  | .ret => if s.stack = [] then some (.stackUnderflow s.pc) else none
  | .call _ =>
    match s.cfg.stackDepth with
    | some d => if s.stack.length ≥ d then some (.stackOverflow s.pc) else none
    | none => none
  | .drw _ _ n => (rangeFault s.i.toNat n.toNat).map (fun a => .memoryOutOfRange s.pc a)
  | .ldB _ => (rangeFault s.i.toNat 3).map (fun a => .memoryOutOfRange s.pc a)
  | .ldMemVx x | .ldVxMem x => (rangeFault s.i.toNat (x.val + 1)).map (fun a => .memoryOutOfRange s.pc a)
  | .skp x | .sknp x => if (s.getV x).toNat ≥ 16 then some (.keyIndexOutOfRange s.pc (s.getV x)) else none
  | .cls | .sys _ | .jp _ | .seImm _ _ | .sneImm _ _ | .seReg _ _ | .ldImm _ _ | .addImm _ _ | .ldReg _ _
  | .orReg _ _ | .andReg _ _ | .xorReg _ _ | .addReg _ _ | .subReg _ _ | .shr _ _ | .subn _ _ | .shl _ _
  | .sneReg _ _ | .ldI _ | .jpV0 _ | .rnd _ _ | .ldVxDt _ | .ldVxK _ | .ldDtVx _ | .ldStVx _ | .addI _
  | .ldF _ => none

/-- The fault a step raises, in R304's order: fetch, then dispatch, then the instruction's own. -/
def stepFault (s : State) : Option Fault :=
  match rangeFault s.pc.toNat 2 with
  | some a => some (.memoryOutOfRange s.pc a)
  | none =>
    let inst := wordOfBytes (s.byteAt s.pc.toNat) (s.byteAt (s.pc.toNat + 1))
    match dispatch s.cfg.strictLowNibble inst with
    | .error _ => some (.unimplementedInstruction s.pc inst)
    | .ok i => instrFault s i

/-- The words of R110, field by field. -/
def illegalWord (strict : Bool) (w : Word) : Prop :=
  let n1 := w.toNat / 0x1000
  let n4 := w.toNat % 0x10
  let kk := w.toNat % 0x100
  (n1 = 0x5 ∧ n4 ≠ 0 ∧ strict = true) ∨
  (n1 = 0x8 ∧ n4 ∈ [0x8, 0x9, 0xA, 0xB, 0xC, 0xD, 0xF]) ∨
  (n1 = 0x9 ∧ n4 ≠ 0 ∧ strict = true) ∨
  (n1 = 0xE ∧ kk ∉ [0x9E, 0xA1]) ∨
  (n1 = 0xF ∧ kk ∉ [0x07, 0x0A, 0x15, 0x18, 0x1E, 0x29, 0x33, 0x55, 0x65])

/-- The sprite bit a draw brings to a framebuffer pixel: some row `k < n` and column `j < 8` of the sprite land there
(R232, R233). -/
def spriteAt (s : State) (x y : Reg) (n : Nat) (r : Fin 32) (c : Fin 64) : Bool :=
  (List.range n).any fun k => (List.range 8).any fun j =>
    (pixelRow (s.getV y) k == r) && (pixelCol (s.getV x) j == c) && spriteBit (s.byteAt (effAddr s k)) j

/-- The state under other compatibility flags. -/
def withCompat (ls sh : Bool) (s : State) : State := { s with cfg := { s.cfg with lsCompat := ls, shCompat := sh } }

/-- One execution of LD Vx,K per given input latch, the host setting the latch before each (R361). -/
def waitThrough (x : Reg) : List (Vector Bool 16) → State → Result
  | [], s => .next s
  | keys :: rest, s =>
    match exec (.ldVxK x) { s with keys := keys } with
    | .next t => waitThrough x rest t
    | stopped => stopped

end Sys2Proof.Cert

open Sys2Proof Sys2Proof.Machine Sys2Proof.Cert

/-! ## Encoding (30_encoding.md) -/

/-- Decoding the word of a well-formed instruction gives it back, under either setting of STRICT_LOW_NIBBLE, from the
word and from its two bytes in memory order. -/
def Obligations.DecodeOfEncodeIsTheInstruction : Prop :=
  ∀ (strict : Bool) (i : Instr), i.wellFormed = true →
    dispatch strict (encode i) = .ok i ∧ ∀ rest, decodeBytes strict (encodeBytes i ++ rest) = .ok (i, rest)

/-- Encoding what a word decodes to gives the word back, but for the low nibble of `5xyN` and `9xyN` that a false
STRICT_LOW_NIBBLE ignores; and what is decoded is well formed (R112, R115). -/
def Obligations.EncodeOfDecodeIsTheWord : Prop :=
  ∀ (strict : Bool) (w : Word) (i : Instr), dispatch strict w = .ok i →
    i.wellFormed = true ∧
    encode i = if strict = false ∧ (w.toNat / 0x1000 = 5 ∨ w.toNat / 0x1000 = 9) then w &&& 0xFFF0 else w

/-- R116: the nibbles, and each of the three argument forms behind the leading nibble, rebuild the word. -/
def Obligations.FieldsRebuildTheWord : Prop :=
  ∀ w : Word,
    (nibbles w).1 ++ ((nibbles w).2.1 ++ ((nibbles w).2.2.1 ++ (nibbles w).2.2.2 : Byte) : Addr12) = w ∧
    encAddress (nibbles w).1 (fieldNnn w) = w ∧
    encRegImm (nibbles w).1 (fieldX w) (fieldKk w) = w ∧
    encRegReg (nibbles w).1 (fieldX w) (fieldY w) (fieldN w) = w

/-- Twelve words written out from R108's patterns decode to their instructions, and `5123` is rejected. -/
def Obligations.SampleWordsDecodeByTheOpcodeMap : Prop :=
  dispatch true 0x00E0 = .ok .cls ∧ dispatch true 0x00EE = .ok .ret ∧ dispatch true 0x0123 = .ok (.sys 0x123) ∧
  dispatch true 0x2210 = .ok (.call 0x210) ∧ dispatch true 0x4342 = .ok (.sneImm 3 0x42) ∧
  dispatch true 0x8AB6 = .ok (.shr 10 11) ∧ dispatch true 0x8AB7 = .ok (.subn 10 11) ∧
  dispatch true 0xB300 = .ok (.jpV0 0x300) ∧ dispatch true 0xD125 = .ok (.drw 1 2 5) ∧
  dispatch true 0xE4A1 = .ok (.sknp 4) ∧ dispatch true 0xF30A = .ok (.ldVxK 3) ∧
  dispatch true 0xF255 = .ok (.ldMemVx 2) ∧ dispatch true 0x5123 = .error (.unimplemented 0x5123)

/-- R108: every row of the opcode map, its pattern written as a number from its match value and its fields, decodes to
its instruction, whatever the fields hold (R102-R104; row 3 but for the words of rows 1 and 2). -/
def Obligations.EveryRowDecodesByItsPattern : Prop :=
  ∀ (strict : Bool) (x y : Reg) (n : Nibble) (kk : Byte) (nnn : Addr12) (w : Word),
    (w.toNat = 0x00E0 → dispatch strict w = .ok .cls) ∧
    (w.toNat = 0x00EE → dispatch strict w = .ok .ret) ∧
    (w.toNat = nnn.toNat → nnn ≠ 0x0E0 → nnn ≠ 0x0EE → dispatch strict w = .ok (.sys nnn)) ∧
    (w.toNat = 0x1000 + nnn.toNat → dispatch strict w = .ok (.jp nnn)) ∧
    (w.toNat = 0x2000 + nnn.toNat → dispatch strict w = .ok (.call nnn)) ∧
    (w.toNat = 0xA000 + nnn.toNat → dispatch strict w = .ok (.ldI nnn)) ∧
    (w.toNat = 0xB000 + nnn.toNat → dispatch strict w = .ok (.jpV0 nnn)) ∧
    (w.toNat = 0x3000 + x.val * 0x100 + kk.toNat → dispatch strict w = .ok (.seImm x kk)) ∧
    (w.toNat = 0x4000 + x.val * 0x100 + kk.toNat → dispatch strict w = .ok (.sneImm x kk)) ∧
    (w.toNat = 0x6000 + x.val * 0x100 + kk.toNat → dispatch strict w = .ok (.ldImm x kk)) ∧
    (w.toNat = 0x7000 + x.val * 0x100 + kk.toNat → dispatch strict w = .ok (.addImm x kk)) ∧
    (w.toNat = 0xC000 + x.val * 0x100 + kk.toNat → dispatch strict w = .ok (.rnd x kk)) ∧
    (w.toNat = 0x5000 + x.val * 0x100 + y.val * 0x10 → dispatch strict w = .ok (.seReg x y)) ∧
    (w.toNat = 0x8000 + x.val * 0x100 + y.val * 0x10 → dispatch strict w = .ok (.ldReg x y)) ∧
    (w.toNat = 0x8001 + x.val * 0x100 + y.val * 0x10 → dispatch strict w = .ok (.orReg x y)) ∧
    (w.toNat = 0x8002 + x.val * 0x100 + y.val * 0x10 → dispatch strict w = .ok (.andReg x y)) ∧
    (w.toNat = 0x8003 + x.val * 0x100 + y.val * 0x10 → dispatch strict w = .ok (.xorReg x y)) ∧
    (w.toNat = 0x8004 + x.val * 0x100 + y.val * 0x10 → dispatch strict w = .ok (.addReg x y)) ∧
    (w.toNat = 0x8005 + x.val * 0x100 + y.val * 0x10 → dispatch strict w = .ok (.subReg x y)) ∧
    (w.toNat = 0x8006 + x.val * 0x100 + y.val * 0x10 → dispatch strict w = .ok (.shr x y)) ∧
    (w.toNat = 0x8007 + x.val * 0x100 + y.val * 0x10 → dispatch strict w = .ok (.subn x y)) ∧
    (w.toNat = 0x800E + x.val * 0x100 + y.val * 0x10 → dispatch strict w = .ok (.shl x y)) ∧
    (w.toNat = 0x9000 + x.val * 0x100 + y.val * 0x10 → dispatch strict w = .ok (.sneReg x y)) ∧
    (w.toNat = 0xD000 + x.val * 0x100 + y.val * 0x10 + n.toNat → dispatch strict w = .ok (.drw x y n)) ∧
    (w.toNat = 0xE09E + x.val * 0x100 → dispatch strict w = .ok (.skp x)) ∧
    (w.toNat = 0xE0A1 + x.val * 0x100 → dispatch strict w = .ok (.sknp x)) ∧
    (w.toNat = 0xF007 + x.val * 0x100 → dispatch strict w = .ok (.ldVxDt x)) ∧
    (w.toNat = 0xF00A + x.val * 0x100 → dispatch strict w = .ok (.ldVxK x)) ∧
    (w.toNat = 0xF015 + x.val * 0x100 → dispatch strict w = .ok (.ldDtVx x)) ∧
    (w.toNat = 0xF018 + x.val * 0x100 → dispatch strict w = .ok (.ldStVx x)) ∧
    (w.toNat = 0xF01E + x.val * 0x100 → dispatch strict w = .ok (.addI x)) ∧
    (w.toNat = 0xF029 + x.val * 0x100 → dispatch strict w = .ok (.ldF x)) ∧
    (w.toNat = 0xF033 + x.val * 0x100 → dispatch strict w = .ok (.ldB x)) ∧
    (w.toNat = 0xF055 + x.val * 0x100 → dispatch strict w = .ok (.ldMemVx x)) ∧
    (w.toNat = 0xF065 + x.val * 0x100 → dispatch strict w = .ok (.ldVxMem x))

/-- R110: dispatch rejects exactly the words R110 lists, by name. -/
def Obligations.UnimplementedWordsAreThoseListed : Prop :=
  ∀ (strict : Bool) (w : Word),
    (illegalWord strict w → dispatch strict w = .error (.unimplemented w)) ∧
    (¬ illegalWord strict w → ∃ i, dispatch strict w = .ok i)

/-- R112: `5xyN` and `9xyN` with `N` nonzero are unimplemented when STRICT_LOW_NIBBLE is true, and are SE and SNE
with `n` ignored when it is false. -/
def Obligations.LowNibbleFollowsStrictParameter : Prop :=
  ∀ (x y : Reg) (n : Nibble), n ≠ 0 →
    dispatch true (encRegReg 0x5 x y n) = .error (.unimplemented (encRegReg 0x5 x y n)) ∧
    dispatch true (encRegReg 0x9 x y n) = .error (.unimplemented (encRegReg 0x9 x y n)) ∧
    dispatch false (encRegReg 0x5 x y n) = .ok (.seReg x y) ∧
    dispatch false (encRegReg 0x9 x y n) = .ok (.sneReg x y)

/-- R109: `00E0` is CLS, `00EE` is RET, every other word of the `0` family is SYS, and outside that family no word
matches two rows. -/
def Obligations.ZeroFamilyPrecedenceAndNoOtherOverlap : Prop :=
  (∀ strict, dispatch strict 0x00E0 = .ok .cls ∧ dispatch strict 0x00EE = .ok .ret) ∧
  (∀ (strict : Bool) (nnn : Addr12), nnn ≠ 0x0E0 → nnn ≠ 0x0EE →
    dispatch strict (encAddress 0x0 nnn) = .ok (.sys nnn)) ∧
  (∀ (strict : Bool) (w : Word), w.toNat / 0x1000 ≠ 0 →
    ((opcodeRows strict).filter (fun r => r.matchesWord w)).length ≤ 1)

/-! ## Fetch, step and faults (R78, R80, R107, R301-R304) -/

/-- R78, R80: the byte at `pc` is the high byte and the byte at `pc + 1` the low byte; a fetch with `pc >= 0xFFF`
answers the first out-of-range address of the two. -/
def Obligations.FetchIsBigEndianAndChecked : Prop :=
  ∀ s : State,
    (s.pc.toNat ≤ 0xFFE → ∃ w : Word, fetch s = .ok w ∧
      w.toNat = 0x100 * (s.byteAt s.pc.toNat).toNat + (s.byteAt (s.pc.toNat + 1)).toNat) ∧
    (s.pc.toNat = 0xFFF → fetch s = .error 0x1000) ∧
    (s.pc.toNat ≥ 0x1000 → fetch s = .error s.pc.toNat)

/-- A step of an unfaulted core runs exactly the instruction that the bytes at `pc` decode to (R107). -/
def Obligations.StepRunsTheDecodedInstruction : Prop :=
  ∀ (s : State) (w : Word) (i : Instr), s.fs = none → fetch s = .ok w →
    dispatch s.cfg.strictLowNibble w = .ok i → step s = exec i s

/-- A well-formed instruction whose two bytes lie at `pc` inside memory is what the next step runs (R78, R107). -/
def Obligations.StepRunsTheEncodedInstructionAtPc : Prop :=
  ∀ (s : State) (i : Instr), s.fs = none → s.pc.toNat ≤ 0xFFE → i.wellFormed = true →
    encodeBytes i = [s.byteAt s.pc.toNat, s.byteAt (s.pc.toNat + 1)] → step s = exec i s

/-- R301, R304: an unfaulted step always completes to a state, whose FS is the fault of R301's table that comes first
in R304's order, or None where no condition holds; the causes carry the codes 1 to 5. -/
def Obligations.StepFaultsExactlyByTheFaultTable : Prop :=
  (∀ s : State, s.fs = none → ∃ t, step s = .next t ∧ t.fs = stepFault s) ∧
  (∀ (p w : Word) (a : Nat) (b : Byte),
    faultCode (.unimplementedInstruction p w) = 1 ∧ faultCode (.stackUnderflow p) = 2 ∧
    faultCode (.memoryOutOfRange p a) = 3 ∧ faultCode (.stackOverflow p) = 4 ∧
    faultCode (.keyIndexOutOfRange p b) = 5)

/-- The meaning of every instruction answers a state, and raises exactly its own fault of R301's table. -/
def Obligations.InstructionFaultsExactlyByItsRule : Prop :=
  ∀ (i : Instr) (s : State), s.fs = none → ∃ t, exec i s = .next t ∧ t.fs = instrFault s i

/-- R303: an instruction or a step that raises a fault changes FS and nothing else. (This formalises the rule itself;
beside it only the fault clauses of R143, R145, R204-R206, R231 and R250 read a faulted state beside FS, in those rules'
own words; log 4.) -/
def Obligations.FaultChangesOnlyTheFaultStatus : Prop :=
  (∀ (i : Instr) (s t : State), exec i s = .next t → t.fs ≠ s.fs → t = { s with fs := t.fs }) ∧
  (∀ s t : State, step s = .next t → t.fs ≠ none → t = { s with fs := t.fs })

/-- R302, R306: once FS holds a fault, every step returns that same fault and changes nothing, a tick changes nothing,
and no sequence of host operations changes anything: FS is not cleared, and what would write is refused (that `set_key`
and `load` are then refused is the model's reading of R306, log 9). -/
def Obligations.FaultIsSticky : Prop :=
  ∀ (s : State) (f : Fault), s.fs = some f →
    step s = .fault f ∧ stepPort s = (s, .fault f) ∧ tick s = s ∧
    (∀ (k : Nat) (b : Bool), setKey k b s = .error .coreFaulted) ∧
    (∀ image : List Byte, loadImage image s = .error .coreFaulted) ∧
    ∀ (ph : Phase) (ops : List HostOp), runOps ops ⟨s, ph⟩ = ⟨s, ph⟩

/-- R317: the step port answers `Ok` when the step leaves FS None, and otherwise the fault that FS then holds. -/
def Obligations.StepPortReportsTheFaultStatus : Prop :=
  ∀ s : State, s.fs = none →
    ∃ t, step s = .next t ∧ stepPort s = (t, match t.fs with | none => .ok | some f => .fault f)

/-! ## Control flow (40_control_flow.md) -/

/-- R142: SYS changes `pc` by `advance` and nothing else, whatever `nnn` is. -/
def Obligations.SysOnlyAdvances : Prop :=
  ∀ (nnn : Addr12) (s : State), exec (.sys nnn) s = .next { s with pc := s.pc + 2 }

/-- R144, R150: JP goes to `nnn`, JP V0 to the exact sum of `nnn` and V0; nothing else changes. -/
def Obligations.JumpsSetPc : Prop :=
  ∀ (nnn : Addr12) (s : State),
    (∃ t, exec (.jp nnn) s = .next t ∧ t.pc.toNat = nnn.toNat ∧ ChangesOnly [.pc] s t) ∧
    (∃ t, exec (.jpV0 nnn) s = .next t ∧ t.pc.toNat = nnn.toNat + (s.getV 0).toNat ∧ ChangesOnly [.pc] s t)

/-- R145: CALL pushes `pc + 2` and goes to `nnn` while the stack holds fewer than STACK_DEPTH entries; at STACK_DEPTH
it raises StackOverflow, and neither the stack nor `pc` changes; an unbounded stack never does. -/
def Obligations.CallPushesReturnAddress : Prop :=
  ∀ (nnn : Addr12) (s : State),
    ((∀ d, s.cfg.stackDepth = some d → s.stack.length < d) →
      ∃ t, exec (.call nnn) s = .next t ∧ t.stack = (s.pc + 2) :: s.stack ∧ t.pc.toNat = nnn.toNat ∧
        ChangesOnly [.stack, .pc] s t) ∧
    (s.cfg.stackDepth = some s.stack.length →
      exec (.call nnn) s = .next { s with fs := some (.stackOverflow s.pc) })

/-- R143: RET sets `pc` to the newest stack entry and removes it; on an empty stack it raises StackUnderflow, and
neither the stack nor `pc` changes. -/
def Obligations.RetPopsReturnAddress : Prop :=
  ∀ s : State,
    (∀ a rest, s.stack = a :: rest →
      ∃ t, exec .ret s = .next t ∧ t.pc = a ∧ t.stack = rest ∧ ChangesOnly [.stack, .pc] s t) ∧
    (s.stack = [] → exec .ret s = .next { s with fs := some (.stackUnderflow s.pc) })

/-- A CALL that does not overflow, then a body that leaves the stack as it found it, then RET: `pc` is behind the
call and the stack is what it was (R143, R145, C1). -/
def Obligations.CallThenRetReturnsBehindTheCall : Prop :=
  ∀ (nnn : Addr12) (s t u : State), exec (.call nnn) s = .next t → t.fs = none → u.stack = t.stack →
    ∃ w, exec .ret u = .next w ∧ w.pc = s.pc + 2 ∧ w.stack = s.stack ∧ ChangesOnly [.stack, .pc] u w

/-- R146, R147 (and R140): SE and SNE against an immediate skip by 4 or advance by 2, and change only `pc`. -/
def Obligations.ImmediateSkips : Prop :=
  ∀ (x : Reg) (kk : Byte) (s : State),
    (∃ t, exec (.seImm x kk) s = .next t ∧ t.pc = (if s.getV x = kk then s.pc + 4 else s.pc + 2) ∧
      ChangesOnly [.pc] s t) ∧
    (∃ t, exec (.sneImm x kk) s = .next t ∧ t.pc = (if s.getV x = kk then s.pc + 2 else s.pc + 4) ∧
      ChangesOnly [.pc] s t)

/-- R148, R149 (and R140): SE and SNE of two registers; with `x = y` SE always skips and SNE never does. -/
def Obligations.RegisterSkips : Prop :=
  ∀ (x y : Reg) (s : State),
    (∃ t, exec (.seReg x y) s = .next t ∧ t.pc = (if s.getV x = s.getV y then s.pc + 4 else s.pc + 2) ∧
      (x = y → t.pc = s.pc + 4) ∧ ChangesOnly [.pc] s t) ∧
    (∃ t, exec (.sneReg x y) s = .next t ∧ t.pc = (if s.getV x = s.getV y then s.pc + 2 else s.pc + 4) ∧
      (x = y → t.pc = s.pc + 2) ∧ ChangesOnly [.pc] s t)

/-! ## ALU (41_alu.md) -/

/-- R163, R164: LD Vx,kk and ADD Vx,kk (modulo 256, no flag: VF changes only as the destination). -/
def Obligations.ImmediateLoadAndAdd : Prop :=
  ∀ (x : Reg) (kk : Byte) (s : State),
    (∃ t, exec (.ldImm x kk) s = .next t ∧ t.getV x = kk ∧ t.pc = s.pc + 2 ∧ ChangesOnly [.v x, .pc] s t) ∧
    (∃ t, exec (.addImm x kk) s = .next t ∧ (t.getV x).toNat = ((s.getV x).toNat + kk.toNat) % 256 ∧
      t.pc = s.pc + 2 ∧ ChangesOnly [.v x, .pc] s t)

/-- R165-R168: LD Vx,Vy, OR, AND and XOR, bit by bit, with no flag. -/
def Obligations.CopyAndLogic : Prop :=
  ∀ (x y : Reg) (s : State),
    (∃ t, exec (.ldReg x y) s = .next t ∧ t.getV x = s.getV y ∧ t.pc = s.pc + 2 ∧ ChangesOnly [.v x, .pc] s t) ∧
    (∃ t, exec (.orReg x y) s = .next t ∧
      (∀ b, b < 8 → (t.getV x).getLsbD b = ((s.getV x).getLsbD b || (s.getV y).getLsbD b)) ∧
      t.pc = s.pc + 2 ∧ ChangesOnly [.v x, .pc] s t) ∧
    (∃ t, exec (.andReg x y) s = .next t ∧
      (∀ b, b < 8 → (t.getV x).getLsbD b = ((s.getV x).getLsbD b && (s.getV y).getLsbD b)) ∧
      t.pc = s.pc + 2 ∧ ChangesOnly [.v x, .pc] s t) ∧
    (∃ t, exec (.xorReg x y) s = .next t ∧
      (∀ b, b < 8 → (t.getV x).getLsbD b = ((s.getV x).getLsbD b ^^ (s.getV y).getLsbD b)) ∧
      t.pc = s.pc + 2 ∧ ChangesOnly [.v x, .pc] s t)

/-- R169: ADD Vx,Vy writes the sum modulo 256, and VF ends as the carry (also with `x = F`). -/
def Obligations.AddWritesSumAndCarry : Prop :=
  ∀ (x y : Reg) (s : State), ∃ t, exec (.addReg x y) s = .next t ∧
    (x ≠ regVF → (t.getV x).toNat = ((s.getV x).toNat + (s.getV y).toNat) % 256) ∧
    t.getV regVF = (if (s.getV x).toNat + (s.getV y).toNat > 255 then 1 else 0) ∧
    t.pc = s.pc + 2 ∧ ChangesOnly [.v x, .v regVF, .pc] s t

/-- R170: SUB writes `(Vx - Vy) mod 256`, and VF ends as 0 on a borrow, else 1. -/
def Obligations.SubWritesDifferenceAndNotBorrow : Prop :=
  ∀ (x y : Reg) (s : State), ∃ t, exec (.subReg x y) s = .next t ∧
    (x ≠ regVF → ((t.getV x).toNat : Int) = ((s.getV x).toNat - (s.getV y).toNat : Int) % 256) ∧
    t.getV regVF = (if (s.getV x).toNat < (s.getV y).toNat then 0 else 1) ∧
    t.pc = s.pc + 2 ∧ ChangesOnly [.v x, .v regVF, .pc] s t

/-- R172: SUBN writes `(Vy - Vx) mod 256`, and VF ends as 1 on a borrow, else 0 (the document's polarity, C9). -/
def Obligations.SubnWritesDifferenceAndBorrow : Prop :=
  ∀ (x y : Reg) (s : State), ∃ t, exec (.subn x y) s = .next t ∧
    (x ≠ regVF → ((t.getV x).toNat : Int) = ((s.getV y).toNat - (s.getV x).toNat : Int) % 256) ∧
    t.getV regVF = (if (s.getV y).toNat < (s.getV x).toNat then 1 else 0) ∧
    t.pc = s.pc + 2 ∧ ChangesOnly [.v x, .v regVF, .pc] s t

/-- R171, R173: the shifts by one of the source that SH_COMPAT selects; VF ends as the bit shifted out. -/
def Obligations.ShiftsMoveTheSelectedSource : Prop :=
  ∀ (x y : Reg) (s : State) (src : Nat), src = (if s.cfg.shCompat then s.getV x else s.getV y).toNat →
    (∃ t, exec (.shr x y) s = .next t ∧ (x ≠ regVF → (t.getV x).toNat = src / 2) ∧
      (t.getV regVF).toNat = src % 2 ∧ t.pc = s.pc + 2 ∧ ChangesOnly [.v x, .v regVF, .pc] s t) ∧
    (∃ t, exec (.shl x y) s = .next t ∧ (x ≠ regVF → (t.getV x).toNat = src * 2 % 256) ∧
      (t.getV regVF).toNat = src / 128 ∧ t.pc = s.pc + 2 ∧ ChangesOnly [.v x, .v regVF, .pc] s t)

/-- R174: RND writes the drawn byte masked by `kk`, with no bit outside `kk`, and takes one draw. Its effect is stated
for EVERY byte `r` first, then for the free value of the draw at hand (log 2). -/
def Obligations.RndMasksAFreeDraw : Prop :=
  ∀ (x : Reg) (kk : Byte) (s : State),
    (∀ r : Byte, (rndWith r x kk s).getV x = r &&& kk ∧ (rndWith r x kk s).draws = s.draws + 1 ∧
      (rndWith r x kk s).pc = s.pc + 2 ∧ ChangesOnly [.v x, .draws, .pc] s (rndWith r x kk s)) ∧
    (∃ r : Byte, exec (.rnd x kk) s = .next (rndWith r x kk s)) ∧
    (∃ t, exec (.rnd x kk) s = .next t ∧ ∀ b, kk.getLsbD b = false → (t.getV x).getLsbD b = false)

/-- R316: RND consumes exactly one byte of the random port, whatever its operands, and nothing else consumes any: no
other instruction, no tick, no host write. -/
def Obligations.OnlyRndConsumesTheRandomPort : Prop :=
  (∀ (i : Instr) (s t : State), exec i s = .next t →
    t.draws = s.draws + (match i with | .rnd _ _ => 1 | _ => 0)) ∧
  (∀ s : State, (tick s).draws = s.draws) ∧
  (∀ (k : Nat) (b : Bool) (s t : State), setKey k b s = .ok t → t.draws = s.draws) ∧
  (∀ (image : List Byte) (s t : State), loadImage image s = .ok t → t.draws = s.draws)

/-- R31: VF is written only by ADD, SUB, SUBN, SHR, SHL and DRW as a flag, and by any other instruction only as its
ordinary destination (`x = F`, or the range of LD Vx,[I]). -/
def Obligations.OnlyFlagInstructionsWriteVF : Prop :=
  ∀ (i : Instr) (s t : State), exec i s = .next t →
    (match i with
      | .addReg _ _ | .subReg _ _ | .subn _ _ | .shr _ _ | .shl _ _ | .drw _ _ _ => False
      | .ldImm x _ | .addImm x _ | .ldReg x _ | .orReg x _ | .andReg x _ | .xorReg x _ | .rnd x _ | .ldVxDt x
      | .ldVxK x | .ldVxMem x => x ≠ regVF
      | _ => True) →
    t.getV regVF = s.getV regVF

/-! ## Index register and memory (20_memory.md, 42_index_memory.md) -/

/-- R201, R203: LD I sets `I` to `nnn`; LD F sets it to `V[x] * 5` from all 8 bits. -/
def Obligations.IndexLoads : Prop :=
  ∀ (s : State),
    (∀ nnn : Addr12, ∃ t, exec (.ldI nnn) s = .next t ∧ t.i.toNat = nnn.toNat ∧ t.pc = s.pc + 2 ∧
      ChangesOnly [.i, .pc] s t) ∧
    (∀ x : Reg, ∃ t, exec (.ldF x) s = .next t ∧ t.i.toNat = (s.getV x).toNat * 5 ∧ t.pc = s.pc + 2 ∧
      ChangesOnly [.i, .pc] s t)

/-- R202: ADD I wraps modulo 65536, is not reduced to 12 bits, and writes no flag. -/
def Obligations.AddIndexWrapsAt16Bits : Prop :=
  ∀ (x : Reg) (s : State), ∃ t, exec (.addI x) s = .next t ∧
    t.i.toNat = (s.i.toNat + (s.getV x).toNat) % 65536 ∧ t.pc = s.pc + 2 ∧ ChangesOnly [.i, .pc] s t

/-- R72, R73: a read at or above 0x1000 answers the address as out of range, so does a write; a write inside makes
that byte the value written and leaves every other byte and every other part of the state alone. -/
def Obligations.MemoryReadAfterWrite : Prop :=
  (∀ (s : State) (a : Nat), a ≥ 0x1000 → memRead s a = .error a ∧ ∀ b, memWrite s a b = .error a) ∧
  (∀ (s : State) (a : Nat), a < 0x1000 → memRead s a = .ok (s.byteAt a)) ∧
  (∀ (s : State) (a : Nat) (b : Byte), Memory.wf s.cfg.font s.mem → a < 0x1000 →
    ∃ t, memWrite s a b = .ok t ∧ memRead t a = .ok b ∧ ChangesOnly [.byte a] s t)

/-- R204: LD B stores the three decimal digits at `I`, `I + 1`, `I + 2` when they are in range, and nothing else but
`pc` changes; else it raises MemoryOutOfRange at the lowest address out of range, and nothing is written. -/
def Obligations.BcdDigitsAreStored : Prop :=
  ∀ (x : Reg) (s : State),
    (Memory.wf s.cfg.font s.mem → s.i.toNat + 2 < 0x1000 → ∃ t, exec (.ldB x) s = .next t ∧
      (t.byteAt (effAddr s 0)).toNat = (s.getV x).toNat / 100 ∧
      (t.byteAt (effAddr s 1)).toNat = (s.getV x).toNat / 10 % 10 ∧
      (t.byteAt (effAddr s 2)).toNat = (s.getV x).toNat % 10 ∧
      t.pc = s.pc + 2 ∧ ChangesOnly (.pc :: storedBytes s 3) s t) ∧
    (s.i.toNat + 2 ≥ 0x1000 →
      exec (.ldB x) s = .next { s with fs := some (.memoryOutOfRange s.pc (max s.i.toNat 0x1000)) })

/-- R205: LD [I],Vx stores `V0`..`Vx` from `I` up when in range, and `I` ends at `I + x + 1` unless LS_COMPAT; else it
raises MemoryOutOfRange at `max(I, 0x1000)`, and nothing is written. -/
def Obligations.RegistersAreStored : Prop :=
  ∀ (x : Reg) (s : State),
    (Memory.wf s.cfg.font s.mem → s.i.toNat + x.val < 0x1000 → ∃ t, exec (.ldMemVx x) s = .next t ∧
      (∀ k : Reg, k ≤ x → t.byteAt (effAddr s k.val) = s.getV k) ∧
      t.i.toNat = (if s.cfg.lsCompat then s.i.toNat else s.i.toNat + x.val + 1) ∧
      t.pc = s.pc + 2 ∧ ChangesOnly (.i :: .pc :: storedBytes s (x.val + 1)) s t) ∧
    (s.i.toNat + x.val ≥ 0x1000 →
      exec (.ldMemVx x) s = .next { s with fs := some (.memoryOutOfRange s.pc (max s.i.toNat 0x1000)) })

/-- R206: LD Vx,[I] loads `V0`..`Vx` from `I` up when in range, and `I` ends at `I + x + 1` unless LS_COMPAT; no
register above `Vx` and no byte of memory changes; else it raises MemoryOutOfRange, and no register changes. -/
def Obligations.RegistersAreLoaded : Prop :=
  ∀ (x : Reg) (s : State),
    (s.i.toNat + x.val < 0x1000 → ∃ t, exec (.ldVxMem x) s = .next t ∧
      (∀ k : Reg, k ≤ x → t.getV k = s.byteAt (effAddr s k.val)) ∧
      t.i.toNat = (if s.cfg.lsCompat then s.i.toNat else s.i.toNat + x.val + 1) ∧
      t.pc = s.pc + 2 ∧
      ChangesOnly (.i :: .pc :: ((List.finRange 16).filter (fun z => z ≤ x)).map Part.v) s t) ∧
    (s.i.toNat + x.val ≥ 0x1000 →
      exec (.ldVxMem x) s = .next { s with fs := some (.memoryOutOfRange s.pc (max s.i.toNat 0x1000)) })

/-- Storing `V0`..`Vx` and loading them again from the same `I`, whatever the registers hold meanwhile, yields the
original values (R205, R206, W6). -/
def Obligations.StoreThenLoadRestoresRegisters : Prop :=
  ∀ (x : Reg) (s t u w : State), Memory.wf s.cfg.font s.mem → exec (.ldMemVx x) s = .next t → t.fs = none →
    (∀ a, u.byteAt a = t.byteAt a) → u.i = s.i → exec (.ldVxMem x) u = .next w →
    w.fs = u.fs ∧ ∀ k : Reg, k ≤ x → w.getV k = s.getV k

/-- R84, R92: every address of memory can be written, the font region included; of the instructions only LD B and
LD [I],Vx write memory, and they only the bytes they store to. -/
def Obligations.OnlyStoresWriteMemory : Prop :=
  (∀ (s : State) (a : Nat) (b : Byte), Memory.wf s.cfg.font s.mem → a < 0x1000 →
    ∃ t, memWrite s a b = .ok t ∧ t.byteAt a = b) ∧
  (∀ (i : Instr) (s t : State) (a : Nat), exec i s = .next t → t.byteAt a ≠ s.byteAt a →
    (∃ x, i = .ldB x ∧ ∃ k, k < 3 ∧ a = effAddr s k) ∨
    (∃ x : Reg, i = .ldMemVx x ∧ ∃ k, k < x.val + 1 ∧ a = effAddr s k))

/-- R90: a byte written is seen by the very next fetch of its address, as the high byte at `pc` and as the low byte at
`pc + 1`. -/
def Obligations.FetchSeesTheLastStore : Prop :=
  ∀ (s t : State) (a : Nat) (b : Byte) (w : Word), Memory.wf s.cfg.font s.mem →
    memWrite s a b = .ok t → fetch t = .ok w →
    (a = t.pc.toNat → w.extractLsb' 8 8 = b) ∧ (a = t.pc.toNat + 1 → w.extractLsb' 0 8 = b)

/-! ## Display (43_display.md) -/

/-- R230: after CLS every pixel is unset, and nothing but FB and `pc` has changed. -/
def Obligations.ClsClearsEveryPixel : Prop :=
  ∀ s : State, ∃ t, exec .cls s = .next t ∧ (∀ r c, pixel t.fb r c = false) ∧ t.pc = s.pc + 2 ∧
    ChangesOnly [.fb, .pc] s t

/-- R231-R233: when the sprite rows are in range (always with `n = 0`), DRW XORs each pixel with the sprite bit that
lands on it, with coordinates read before VF is written and wrapped on both axes; VF is 1 exactly when some pixel went
from set to unset; only FB, VF and `pc` change. Else it raises MemoryOutOfRange at `max(I, 0x1000)`, and neither FB nor
VF changes. -/
def Obligations.DrawXorsTheSprite : Prop :=
  ∀ (x y : Reg) (n : Nibble) (s : State),
    ((n = 0 ∨ s.i.toNat + n.toNat - 1 < 0x1000) → ∃ t, exec (.drw x y n) s = .next t ∧
      (∀ r c, pixel t.fb r c = (pixel s.fb r c ^^ spriteAt s x y n.toNat r c)) ∧
      ((∃ r c, pixel s.fb r c = true ∧ pixel t.fb r c = false) → t.getV regVF = 1) ∧
      ((∀ r c, pixel s.fb r c = true → pixel t.fb r c = true) → t.getV regVF = 0) ∧
      t.pc = s.pc + 2 ∧ ChangesOnly [.fb, .v regVF, .pc] s t) ∧
    (n ≠ 0 → s.i.toNat + n.toNat - 1 ≥ 0x1000 →
      exec (.drw x y n) s = .next { s with fs := some (.memoryOutOfRange s.pc (max s.i.toNat 0x1000)) })

/-- R234's first part: drawing the same sprite twice at the same place restores FB. The second draw reads the same rows
at the same coordinates (its state may otherwise differ). Its VF is 1 exactly when some pixel under a set sprite bit
was unset before the first draw: this follows from R231; R234's last sentence says it of every sprite with a set bit,
which R231 contradicts where the first draw only turned pixels off (log 7). -/
def Obligations.DrawTwiceRestoresTheFrame : Prop :=
  ∀ (x y x' y' : Reg) (n : Nibble) (s t u w : State), exec (.drw x y n) s = .next t → t.fs = none →
    u.fb = t.fb → u.i = s.i → u.getV x' = s.getV x → u.getV y' = s.getV y →
    (∀ a, u.byteAt a = s.byteAt a) → exec (.drw x' y' n) u = .next w →
    w.fb = s.fb ∧
    (w.getV regVF = 1 ↔ ∃ r c, spriteAt s x y n.toNat r c = true ∧ pixel s.fb r c = false)

/-- R235: element `64 r + c` of the framebuffer port's 2048 booleans is `FB[r][c]`. -/
def Obligations.FramebufferPortIsRowMajor : Prop :=
  ∀ s : State, (framebufferBits s).length = 2048 ∧
    ∀ (r : Fin 32) (c : Fin 64), (framebufferBits s)[64 * r.val + c.val]? = some (pixel s.fb r c)

/-! ## Input and timers (44_input_timers.md) -/

/-- R250-R252: SKP and SKNP test the key that `V[x]` names; at or above 16 they raise KeyIndexOutOfRange
and change nothing else. -/
def Obligations.KeyTestsSkip : Prop :=
  ∀ (x : Reg) (s : State),
    (∀ k : Fin 16, (s.getV x).toNat = k.val →
      (∃ t, exec (.skp x) s = .next t ∧ t.pc = (if s.keys[k] = true then s.pc + 4 else s.pc + 2) ∧
        ChangesOnly [.pc] s t) ∧
      (∃ t, exec (.sknp x) s = .next t ∧ t.pc = (if s.keys[k] = true then s.pc + 2 else s.pc + 4) ∧
        ChangesOnly [.pc] s t)) ∧
    ((s.getV x).toNat ≥ 16 →
      exec (.skp x) s = .next { s with fs := some (.keyIndexOutOfRange s.pc (s.getV x)) } ∧
      exec (.sknp x) s = .next { s with fs := some (.keyIndexOutOfRange s.pc (s.getV x)) })

/-- R253, R257, R258: LD Vx,DT reads the delay timer; LD DT,Vx and LD ST,Vx write the timers. -/
def Obligations.TimerMoves : Prop :=
  ∀ (x : Reg) (s : State),
    (∃ t, exec (.ldVxDt x) s = .next t ∧ t.getV x = s.dt ∧ t.pc = s.pc + 2 ∧ ChangesOnly [.v x, .pc] s t) ∧
    (∃ t, exec (.ldDtVx x) s = .next t ∧ t.dt = s.getV x ∧ t.pc = s.pc + 2 ∧ ChangesOnly [.dt, .pc] s t) ∧
    (∃ t, exec (.ldStVx x) s = .next t ∧ t.st = s.getV x ∧ t.pc = s.pc + 2 ∧ ChangesOnly [.st, .pc] s t)

/-- R254-R256: LD Vx,K from Idle with no key pressed changes nothing; with one pressed it records the lowest pressed
key and latches, `pc` staying; while waiting, any pressed key leaves the state alone, and with every key released it
completes: Idle, `advance`, no register written. -/
def Obligations.KeyWaitLatchesThenCompletes : Prop :=
  ∀ (x : Reg) (s : State),
    (s.kw = .idle → (∀ k : Fin 16, s.keys[k] = false) → exec (.ldVxK x) s = .next s) ∧
    (s.kw = .idle → ∀ k : Fin 16, s.keys[k] = true → (∀ j : Fin 16, j < k → s.keys[j] = false) →
      ∃ t, exec (.ldVxK x) s = .next t ∧ (t.getV x).toNat = k.val ∧ t.kw = .waitingForRelease x ∧
        t.pc = s.pc ∧ ChangesOnly [.v x, .kw] s t) ∧
    (∀ d, s.kw = .waitingForRelease d → (∃ k : Fin 16, s.keys[k] = true) → exec (.ldVxK x) s = .next s) ∧
    (∀ d, s.kw = .waitingForRelease d → (∀ k : Fin 16, s.keys[k] = false) →
      ∃ t, exec (.ldVxK x) s = .next t ∧ t.kw = .idle ∧ t.pc = s.pc + 2 ∧ ChangesOnly [.kw, .pc] s t)

/-- The key-wait as one transaction (R255, R256, R360): a press seen from Idle, then any number of steps of the
instruction with some key held at each, then one step with every key released: `pc` has advanced exactly once, and
`V[x]` is the key that was lowest at the press. -/
def Obligations.KeyWaitCompletesAfterPressAndRelease : Prop :=
  ∀ (x : Reg) (s t u w : State) (k : Fin 16) (held : List (Vector Bool 16)), s.kw = .idle → s.keys[k] = true →
    (∀ j : Fin 16, j < k → s.keys[j] = false) → exec (.ldVxK x) s = .next t →
    (∀ keys ∈ held, ∃ j : Fin 16, keys[j] = true) → waitThrough x held t = .next u →
    exec (.ldVxK x) { u with keys := Vector.replicate 16 false } = .next w →
    w.pc = s.pc + 2 ∧ w.kw = .idle ∧ (w.getV x).toNat = k.val ∧ ChangesOnly [.v x, .pc, .keys] s w

/-- R259, R260: a tick decrements both timers by one, saturating at zero, and changes nothing else; once FS is not None
it has no effect. -/
def Obligations.TickDecrementsAndSaturates : Prop :=
  ∀ s : State,
    (s.fs = none → (tick s).dt.toNat = s.dt.toNat - 1 ∧ (tick s).st.toNat = s.st.toNat - 1 ∧
      ChangesOnly [.dt, .st] s (tick s)) ∧
    (s.fs ≠ none → tick s = s)

/-! ## Whole-machine rules -/

/-- THE FRAME OF EVERY INSTRUCTION: when it raises no fault, an instruction changes only the parts its own rule
writes. In particular no instruction writes K or the configuration, only CALL and RET touch the stack, only CLS and DRW
write FB, only LD Vx,K writes KW, no instruction but LD DT and LD ST writes a timer (R33, R39-R44, R235). -/
def Obligations.EveryInstructionKeepsItsFrame : Prop :=
  ∀ (i : Instr) (s t : State), exec i s = .next t → t.fs = s.fs → ChangesOnly (mayWrite s i) s t

/-- R359: the compatibility flags change what `8xy6`, `8xyE`, `Fx55` and `Fx65` do and no other instruction. RND is
stated through `rndWith`, for every drawn byte, so that nothing rests on which byte a draw gives (log 2). -/
def Obligations.CompatFlagsAffectOnlyFourInstructions : Prop :=
  (∀ (ls sh : Bool) (i : Instr) (s t : State),
    (match i with | .shr _ _ | .shl _ _ | .ldMemVx _ | .ldVxMem _ | .rnd _ _ => False | _ => True) →
    exec i s = .next t → exec i (withCompat ls sh s) = .next (withCompat ls sh t)) ∧
  (∀ (ls sh : Bool) (r : Byte) (x : Reg) (kk : Byte) (s : State),
    rndWith r x kk (withCompat ls sh s) = withCompat ls sh (rndWith r x kk s))

/-! ## Host interface, reset and invariants -/

/-- R312, R319: on an unfaulted core set_key writes one key for an index of 0 to 15, and is refused for any other (on a
faulted core it is refused whatever the index, log 9: FaultIsSticky). -/
def Obligations.SetKeyWritesOneKey : Prop :=
  ∀ (k : Nat) (b : Bool) (s : State), s.fs = none →
    (k < 16 → ∃ t, setKey k b s = .ok t ∧ (∀ j : Fin 16, t.keys[j] = if j.val = k then b else s.keys[j]) ∧
      ChangesOnly [.keys] s t) ∧
    (k ≥ 16 → setKey k b s = .error (.keyOutOfDomain k))

/-- R319, R352: on an unfaulted core load copies an image of at most 3584 bytes verbatim to 0x200 upward and changes
nothing else; a longer image is refused (on a faulted core every image is, log 9: FaultIsSticky). -/
def Obligations.LoadCopiesTheImage : Prop :=
  ∀ (image : List Byte) (s : State), Memory.wf s.cfg.font s.mem → s.fs = none →
    (image.length ≤ 3584 → ∃ t, loadImage image s = .ok t ∧
      (∀ a, t.byteAt a = if h : 0x200 ≤ a ∧ a < 0x200 + image.length then image[a - 0x200] else s.byteAt a) ∧
      t = { s with mem := t.mem }) ∧
    (image.length > 3584 → loadImage image s = .error (.imageTooLong image.length))

/-- R354, R319: a step before the load is refused, and a refused operation changes nothing. Log 10 (DEDUCED, no rule's
own words): a fitting load is accepted in every unfaulted state of an instance that has not been loaded, so after ticks
or key writes too, where R318 has it right after construct; and a second load is refused. -/
def Obligations.BootOrderIsChecked : Prop :=
  (∀ s : State, hostOp .step ⟨s, .constructed⟩ = (⟨s, .constructed⟩, .refused .notLoaded)) ∧
  (∀ (image : List Byte) (s : State), image.length ≤ 3584 → s.fs = none →
    ∃ t, hostOp (.load image) ⟨s, .constructed⟩ = (⟨t, .loaded⟩, .ok) ∧ loadImage image s = .ok t) ∧
  (∀ (image : List Byte) (s : State), hostOp (.load image) ⟨s, .loaded⟩ = (⟨s, .loaded⟩, .refused .alreadyLoaded)) ∧
  (∀ (op : HostOp) (n m : Instance) (r : PortRefusal), hostOp op n = (m, .refused r) → m = n)

/-- R101-R104, R106: the decoder port answers the fields of the two bytes at any address, aligned or not, with
`OutOfRange` (none) exactly when `a + 1 >= 0x1000`. -/
def Obligations.DecoderPortReadsFields : Prop :=
  ∀ (s : State) (a : Nat),
    (a + 1 ≥ 0x1000 → nibblesPort s a = none ∧ ∀ kind, argsPort kind s a = none) ∧
    (a + 1 < 0x1000 → ∀ hi lo : Nat, hi = (s.byteAt a).toNat → lo = (s.byteAt (a + 1)).toNat →
      (∃ n1 n2 n3 n4 : Nibble, nibblesPort s a = some (n1, n2, n3, n4) ∧
        n1.toNat = hi / 16 ∧ n2.toNat = hi % 16 ∧ n3.toNat = lo / 16 ∧ n4.toNat = lo % 16) ∧
      (∃ nnn : Addr12, argsPort .address s a = some (.address nnn) ∧ nnn.toNat = hi % 16 * 256 + lo) ∧
      (∃ (x : Reg) (kk : Byte), argsPort .registerImmediate s a = some (.registerImmediate x kk) ∧
        x.val = hi % 16 ∧ kk.toNat = lo) ∧
      (∃ (x y : Reg) (n : Nibble), argsPort .registerRegisterNibble s a = some (.registerRegisterNibble x y n) ∧
        x.val = hi % 16 ∧ y.val = lo / 16 ∧ n.toNat = lo % 16))

/-- R350, R351, R71: the state right after construction, for every configuration. -/
def Obligations.ConstructionGivesTheResetState : Prop :=
  ∀ cfg : Config,
    (∀ x, (State.construct cfg).getV x = 0) ∧ (State.construct cfg).i = 0 ∧ (State.construct cfg).pc = 0x200 ∧
    (State.construct cfg).stack = [] ∧ (State.construct cfg).dt = 0 ∧ (State.construct cfg).st = 0 ∧
    (∀ r c, pixel (State.construct cfg).fb r c = false) ∧
    (∀ k : Fin 16, (State.construct cfg).keys[k] = false) ∧ (State.construct cfg).kw = .idle ∧
    (State.construct cfg).fs = none ∧ (State.construct cfg).cfg = cfg ∧
    (∀ a, (h : a < 80) → (State.construct cfg).byteAt a = cfg.font[a]) ∧
    (∀ a, 80 ≤ a → (State.construct cfg).byteAt a = 0)

/-- Every state right after construction meets the invariant. -/
def Obligations.ConstructionMeetsTheInvariant : Prop :=
  ∀ cfg : Config, Inv (State.construct cfg)

/-- R37, R38: from every state that meets the invariant, a step gives a state that meets it: memory stays canonical,
no stack entry is above 0x1000 and the stack stays within STACK_DEPTH, and `pc` stays at most 0x10FE, so it never wraps
around 16 bits. -/
def Obligations.EveryStepKeepsTheInvariant : Prop :=
  ∀ s t : State, Inv s → step s = .next t → Inv t

/-- From every instance that meets the invariant, every host operation (load, step, tick, key write), and so every
sequence of them, gives one that meets it, under the same configuration (R37, R38, R43, R361). -/
def Obligations.EveryHostRunKeepsTheInvariant : Prop :=
  (∀ (op : HostOp) (n : Instance), Inv n.core →
    Inv (hostOp op n).1.core ∧ (hostOp op n).1.core.cfg = n.core.cfg) ∧
  (∀ (ops : List HostOp) (n : Instance), Inv n.core →
    Inv (runOps ops n).core ∧ (runOps ops n).core.cfg = n.core.cfg)
end

