-- ==== Sys2Proof/Laws/Decode.lean ====
section
/-! SUPPORT. The decoder's fields and masks, and the encoder's forms, as arithmetic on the word's number, so that a
proof about encodings is a proof about numbers (30_encoding.md R101-R105, R108, R116). -/

namespace Sys2Proof

/-! ## Fields as numbers -/

@[simp] theorem toNat_fieldNnn (w : Word) : (fieldNnn w).toNat = w.toNat % 0x1000 := by simp [fieldNnn]
@[simp] theorem val_fieldX (w : Word) : (fieldX w).val = w.toNat / 0x100 % 0x10 := by
  simp [fieldX, Nat.shiftRight_eq_div_pow]
@[simp] theorem val_fieldY (w : Word) : (fieldY w).val = w.toNat / 0x10 % 0x10 := by
  simp [fieldY, Nat.shiftRight_eq_div_pow]
@[simp] theorem toNat_fieldN (w : Word) : (fieldN w).toNat = w.toNat % 0x10 := by simp [fieldN]
@[simp] theorem toNat_fieldKk (w : Word) : (fieldKk w).toNat = w.toNat % 0x100 := by simp [fieldKk]
@[simp] theorem toNat_hiByte (w : Word) : (hiByte w).toNat = w.toNat / 0x100 := by
  have := w.isLt
  simp [hiByte, Nat.shiftRight_eq_div_pow]
  omega
@[simp] theorem toNat_loByte (w : Word) : (loByte w).toNat = w.toNat % 0x100 := by simp [loByte]
@[simp] theorem toNat_regBits (x : Reg) : (regBits x).toNat = x.val := rfl

theorem toNat_appendBits {m n : Nat} (a : BitVec m) (b : BitVec n) :
    (a ++ b).toNat = a.toNat * 2 ^ n + b.toNat := by
  rw [BitVec.toNat_append, ← Nat.shiftLeft_add_eq_or_of_lt b.isLt, Nat.shiftLeft_eq]

@[simp] theorem toNat_wordOfBytes (hi lo : Byte) : (wordOfBytes hi lo).toNat = hi.toNat * 0x100 + lo.toNat :=
  toNat_appendBits hi lo

/-- The two bytes of a word, put together again, are the word (R78). -/
@[simp] theorem wordOfBytes_hiByte_loByte (w : Word) : wordOfBytes (hiByte w) (loByte w) = w := by
  apply BitVec.eq_of_toNat_eq
  simp only [toNat_wordOfBytes, toNat_hiByte, toNat_loByte]
  omega

@[simp] theorem toNat_encAddress (op : Nibble) (nnn : Addr12) :
    (encAddress op nnn).toNat = op.toNat * 0x1000 + nnn.toNat := toNat_appendBits op nnn

@[simp] theorem toNat_encRegImm (op : Nibble) (x : Reg) (kk : Byte) :
    (encRegImm op x kk).toNat = op.toNat * 0x1000 + x.val * 0x100 + kk.toNat := by
  simp only [encRegImm, toNat_appendBits, toNat_regBits]
  omega

@[simp] theorem toNat_encRegReg (op : Nibble) (x y : Reg) (n : Nibble) :
    (encRegReg op x y n).toNat = op.toNat * 0x1000 + x.val * 0x100 + y.val * 0x10 + n.toNat := by
  simp only [encRegReg, toNat_appendBits, toNat_regBits]
  omega

/-! ## The fields of an encoded form (R116) -/

@[simp] theorem fieldNnn_encAddress (op : Nibble) (nnn : Addr12) : fieldNnn (encAddress op nnn) = nnn := by
  apply BitVec.eq_of_toNat_eq
  rw [toNat_fieldNnn, toNat_encAddress]
  omega

@[simp] theorem fieldX_encRegImm (op : Nibble) (x : Reg) (kk : Byte) : fieldX (encRegImm op x kk) = x := by
  apply Fin.ext
  rw [val_fieldX, toNat_encRegImm]
  omega

@[simp] theorem fieldKk_encRegImm (op : Nibble) (x : Reg) (kk : Byte) : fieldKk (encRegImm op x kk) = kk := by
  apply BitVec.eq_of_toNat_eq
  rw [toNat_fieldKk, toNat_encRegImm]
  omega

@[simp] theorem fieldX_encRegReg (op : Nibble) (x y : Reg) (n : Nibble) : fieldX (encRegReg op x y n) = x := by
  apply Fin.ext
  rw [val_fieldX, toNat_encRegReg]
  omega

@[simp] theorem fieldY_encRegReg (op : Nibble) (x y : Reg) (n : Nibble) : fieldY (encRegReg op x y n) = y := by
  apply Fin.ext
  rw [val_fieldY, toNat_encRegReg]
  omega

@[simp] theorem fieldN_encRegReg (op : Nibble) (x y : Reg) (n : Nibble) : fieldN (encRegReg op x y n) = n := by
  apply BitVec.eq_of_toNat_eq
  rw [toNat_fieldN, toNat_encRegReg]
  omega

/-! ## The leading nibble, the low nibble and the low byte of an encoded form -/

theorem lead_encAddress (op : Nibble) (nnn : Addr12) : (encAddress op nnn).toNat / 0x1000 = op.toNat := by
  rw [toNat_encAddress]
  omega
theorem lead_encRegImm (op : Nibble) (x : Reg) (kk : Byte) : (encRegImm op x kk).toNat / 0x1000 = op.toNat := by
  rw [toNat_encRegImm]
  omega
theorem lead_encRegReg (op : Nibble) (x y : Reg) (n : Nibble) :
    (encRegReg op x y n).toNat / 0x1000 = op.toNat := by
  rw [toNat_encRegReg]
  omega
theorem low_encRegImm (op : Nibble) (x : Reg) (kk : Byte) : (encRegImm op x kk).toNat % 0x100 = kk.toNat := by
  rw [toNat_encRegImm]
  omega
theorem low_encRegReg (op : Nibble) (x y : Reg) (n : Nibble) :
    (encRegReg op x y n).toNat % 0x10 = n.toNat := by
  rw [toNat_encRegReg]
  omega

/-- Words outside the `0` family are neither CLS nor RET (R109). -/
theorem ne_of_lead (w : Word) (h : w.toNat / 0x1000 ≠ 0) : w.toNat ≠ 0x00E0 ∧ w.toNat ≠ 0x00EE := by omega

/-! ## Masks as numbers -/

/-- A word is its four nibbles in order (R101). -/
theorem word_eq_nibbles (w : Word) :
    w = w.extractLsb' 12 4 ++ (w.extractLsb' 8 4 ++ (w.extractLsb' 4 4 ++ w.extractLsb' 0 4 : Byte) : Addr12) := by
  apply BitVec.eq_of_toNat_eq
  have := w.isLt
  simp only [toNat_appendBits, BitVec.extractLsb'_toNat, Nat.shiftRight_eq_div_pow]
  omega

theorem nibble_and_ones (n : Nibble) : n &&& 0xF#4 = n := by simpa using BitVec.and_allOnes (x := n)

theorem and_mask_F000 (w : Word) : (w &&& (0xF000 : Word)).toNat = w.toNat / 0x1000 * 0x1000 := by
  have hm : (0xF000 : Word) = (0xF#4 ++ (0x0#4 ++ (0x0#4 ++ 0x0#4 : Byte) : Addr12) : Word) := by decide
  conv => lhs; rw [word_eq_nibbles w, hm, BitVec.and_append, BitVec.and_append, BitVec.and_append]
  have := w.isLt
  simp only [nibble_and_ones, BitVec.and_zero, toNat_appendBits, BitVec.extractLsb'_toNat,
    Nat.shiftRight_eq_div_pow, BitVec.toNat_ofNat]
  omega

theorem and_mask_F00F (w : Word) : (w &&& (0xF00F : Word)).toNat = w.toNat / 0x1000 * 0x1000 + w.toNat % 0x10 := by
  have hm : (0xF00F : Word) = (0xF#4 ++ (0x0#4 ++ (0x0#4 ++ 0xF#4 : Byte) : Addr12) : Word) := by decide
  conv => lhs; rw [word_eq_nibbles w, hm, BitVec.and_append, BitVec.and_append, BitVec.and_append]
  have := w.isLt
  simp only [nibble_and_ones, BitVec.and_zero, toNat_appendBits, BitVec.extractLsb'_toNat,
    Nat.shiftRight_eq_div_pow, BitVec.toNat_ofNat]
  omega

theorem and_mask_F0FF (w : Word) : (w &&& (0xF0FF : Word)).toNat = w.toNat / 0x1000 * 0x1000 + w.toNat % 0x100 := by
  have hm : (0xF0FF : Word) = (0xF#4 ++ (0x0#4 ++ (0xF#4 ++ 0xF#4 : Byte) : Addr12) : Word) := by decide
  conv => lhs; rw [word_eq_nibbles w, hm, BitVec.and_append, BitVec.and_append, BitVec.and_append]
  have := w.isLt
  simp only [nibble_and_ones, BitVec.and_zero, toNat_appendBits, BitVec.extractLsb'_toNat,
    Nat.shiftRight_eq_div_pow, BitVec.toNat_ofNat]
  omega

theorem and_mask_FFFF (w : Word) : (w &&& (0xFFFF : Word)) = w := by simpa using BitVec.and_allOnes (x := w)

/-! ## Rows as numbers (R108) -/

theorem matches_iff (r : OpcodeRow) (w : Word) :
    r.matchesWord w = decide ((w &&& r.mask).toNat = r.pattern.toNat) := by
  rw [Bool.eq_iff_iff]
  simp only [OpcodeRow.matchesWord, beq_iff_eq, decide_eq_true_eq, BitVec.toNat_inj]

theorem matches_FFFF (p w : Word) (f : Word → Instr) :
    (OpcodeRow.mk p 0xFFFF f).matchesWord w = decide (w.toNat = p.toNat) := by
  simp only [matches_iff, and_mask_FFFF]
theorem matches_F000 (p w : Word) (f : Word → Instr) :
    (OpcodeRow.mk p 0xF000 f).matchesWord w = decide (w.toNat / 0x1000 * 0x1000 = p.toNat) := by
  simp only [matches_iff, and_mask_F000]
theorem matches_F00F (p w : Word) (f : Word → Instr) :
    (OpcodeRow.mk p 0xF00F f).matchesWord w =
      decide (w.toNat / 0x1000 = p.toNat / 0x1000 ∧ w.toNat % 0x10 = p.toNat % 0x1000) := by
  simp only [matches_iff, and_mask_F00F, decide_eq_decide]
  omega
theorem matches_F0FF (p w : Word) (f : Word → Instr) :
    (OpcodeRow.mk p 0xF0FF f).matchesWord w =
      decide (w.toNat / 0x1000 = p.toNat / 0x1000 ∧ w.toNat % 0x100 = p.toNat % 0x1000) := by
  simp only [matches_iff, and_mask_F0FF, decide_eq_decide]
  omega

/-! ## Which row an encoded form lies in -/

theorem encAddress_in_row (op : Nibble) (nnn : Addr12) (p : Word) (f : Word → Instr)
    (h : op.toNat * 0x1000 = p.toNat) : (OpcodeRow.mk p 0xF000 f).matchesWord (encAddress op nnn) = true := by
  rw [matches_F000, decide_eq_true_eq, toNat_encAddress]
  rw [eq_comm] at h
  omega
theorem encRegImm_in_row (op : Nibble) (x : Reg) (kk : Byte) (p : Word) (f : Word → Instr)
    (h : op.toNat * 0x1000 = p.toNat) : (OpcodeRow.mk p 0xF000 f).matchesWord (encRegImm op x kk) = true := by
  rw [matches_F000, decide_eq_true_eq, toNat_encRegImm]
  rw [eq_comm] at h
  omega
theorem encRegImm_in_subrow (op : Nibble) (x : Reg) (kk : Byte) (p : Word) (f : Word → Instr)
    (h : op.toNat * 0x1000 + kk.toNat = p.toNat) :
    (OpcodeRow.mk p 0xF0FF f).matchesWord (encRegImm op x kk) = true := by
  rw [matches_F0FF, decide_eq_true_eq, toNat_encRegImm]
  rw [eq_comm] at h
  omega
theorem encRegReg_in_row (op : Nibble) (x y : Reg) (n : Nibble) (p : Word) (f : Word → Instr)
    (h : op.toNat * 0x1000 = p.toNat) : (OpcodeRow.mk p 0xF000 f).matchesWord (encRegReg op x y n) = true := by
  rw [matches_F000, decide_eq_true_eq, toNat_encRegReg]
  rw [eq_comm] at h
  omega
theorem encRegReg_in_subrow (op : Nibble) (x y : Reg) (n : Nibble) (p : Word) (f : Word → Instr)
    (h : op.toNat * 0x1000 + n.toNat = p.toNat) :
    (OpcodeRow.mk p 0xF00F f).matchesWord (encRegReg op x y n) = true := by
  rw [matches_F00F, decide_eq_true_eq, toNat_encRegReg]
  rw [eq_comm] at h
  omega

/-! ## Dispatch -/

/-- The row search as nested conditionals. -/
def searchRows (w : Word) : List OpcodeRow → Except DecodeError Instr
  | [] => .error (.unimplemented w)
  | r :: rs => if r.matchesWord w = true then .ok (r.make w) else searchRows w rs

theorem dispatch_eq_searchRows (strict : Bool) (w : Word) : dispatch strict w = searchRows w (opcodeRows strict) := by
  unfold dispatch
  induction opcodeRows strict with
  | nil => rfl
  | cons r rs ih =>
    by_cases h : r.matchesWord w = true
    · simp [searchRows, h]
    · simp [searchRows, h, ← ih]

/-- The opcode map as nested cases on the word's numbers: the leading nibble, then the low nibble or the low byte
(R108, R109). -/
theorem dispatch_eq (strict : Bool) (w : Word) :
    dispatch strict w =
      let n1 := w.toNat / 0x1000
      let n4 := w.toNat % 0x10
      let kk := w.toNat % 0x100
      let bad : Except DecodeError Instr := .error (.unimplemented w)
      if w.toNat = 0x00E0 then .ok .cls else if w.toNat = 0x00EE then .ok .ret
      else if n1 = 0x0 then .ok (.sys (fieldNnn w))
      else if n1 = 0x1 then .ok (.jp (fieldNnn w))
      else if n1 = 0x2 then .ok (.call (fieldNnn w))
      else if n1 = 0x3 then .ok (.seImm (fieldX w) (fieldKk w))
      else if n1 = 0x4 then .ok (.sneImm (fieldX w) (fieldKk w))
      else if n1 = 0x5 then if strict = true ∧ n4 ≠ 0 then bad else .ok (.seReg (fieldX w) (fieldY w))
      else if n1 = 0x6 then .ok (.ldImm (fieldX w) (fieldKk w))
      else if n1 = 0x7 then .ok (.addImm (fieldX w) (fieldKk w))
      else if n1 = 0x8 then
        if n4 = 0x0 then .ok (.ldReg (fieldX w) (fieldY w)) else if n4 = 0x1 then .ok (.orReg (fieldX w) (fieldY w))
        else if n4 = 0x2 then .ok (.andReg (fieldX w) (fieldY w))
        else if n4 = 0x3 then .ok (.xorReg (fieldX w) (fieldY w))
        else if n4 = 0x4 then .ok (.addReg (fieldX w) (fieldY w))
        else if n4 = 0x5 then .ok (.subReg (fieldX w) (fieldY w))
        else if n4 = 0x6 then .ok (.shr (fieldX w) (fieldY w))
        else if n4 = 0x7 then .ok (.subn (fieldX w) (fieldY w))
        else if n4 = 0xE then .ok (.shl (fieldX w) (fieldY w)) else bad
      else if n1 = 0x9 then if strict = true ∧ n4 ≠ 0 then bad else .ok (.sneReg (fieldX w) (fieldY w))
      else if n1 = 0xA then .ok (.ldI (fieldNnn w))
      else if n1 = 0xB then .ok (.jpV0 (fieldNnn w))
      else if n1 = 0xC then .ok (.rnd (fieldX w) (fieldKk w))
      else if n1 = 0xD then .ok (.drw (fieldX w) (fieldY w) (fieldN w))
      else if n1 = 0xE then
        if kk = 0x9E then .ok (.skp (fieldX w)) else if kk = 0xA1 then .ok (.sknp (fieldX w)) else bad
      else
        if kk = 0x07 then .ok (.ldVxDt (fieldX w)) else if kk = 0x0A then .ok (.ldVxK (fieldX w))
        else if kk = 0x15 then .ok (.ldDtVx (fieldX w)) else if kk = 0x18 then .ok (.ldStVx (fieldX w))
        else if kk = 0x1E then .ok (.addI (fieldX w)) else if kk = 0x29 then .ok (.ldF (fieldX w))
        else if kk = 0x33 then .ok (.ldB (fieldX w)) else if kk = 0x55 then .ok (.ldMemVx (fieldX w))
        else if kk = 0x65 then .ok (.ldVxMem (fieldX w)) else bad := by
  have hw := w.isLt
  have ha : w.toNat / 0x1000 < 0x10 := by omega
  have hE0 := ne_of_lead w
  rw [dispatch_eq_searchRows]
  cases strict <;>
  simp only [opcodeRows, lowNibbleMask, List.cons_append, List.nil_append, searchRows, matches_FFFF, matches_F000,
    matches_F00F, matches_F0FF, decide_eq_true_eq, if_true, Bool.false_eq_true, if_false] <;>
  generalize w.toNat / 0x1000 = a at * <;>
  interval_cases a <;>
  simp [hE0]

end Sys2Proof
end

