-- ==== Sys2Proof/Laws/State.lean ====
section
/-! SUPPORT. One lemma per field per update of the state, and of the reads through it. -/

namespace Sys2Proof.Machine

/-! ## `State.setV` -/

@[simp] theorem State.setV_mem (s : State) (x : Reg) (b : Byte) : (s.setV x b).mem = s.mem := rfl
@[simp] theorem State.setV_v (s : State) (x : Reg) (b : Byte) : (s.setV x b).v = s.v.set x b := rfl
@[simp] theorem State.setV_i (s : State) (x : Reg) (b : Byte) : (s.setV x b).i = s.i := rfl
@[simp] theorem State.setV_pc (s : State) (x : Reg) (b : Byte) : (s.setV x b).pc = s.pc := rfl
@[simp] theorem State.setV_stack (s : State) (x : Reg) (b : Byte) : (s.setV x b).stack = s.stack := rfl
@[simp] theorem State.setV_dt (s : State) (x : Reg) (b : Byte) : (s.setV x b).dt = s.dt := rfl
@[simp] theorem State.setV_st (s : State) (x : Reg) (b : Byte) : (s.setV x b).st = s.st := rfl
@[simp] theorem State.setV_fb (s : State) (x : Reg) (b : Byte) : (s.setV x b).fb = s.fb := rfl
@[simp] theorem State.setV_keys (s : State) (x : Reg) (b : Byte) : (s.setV x b).keys = s.keys := rfl
@[simp] theorem State.setV_kw (s : State) (x : Reg) (b : Byte) : (s.setV x b).kw = s.kw := rfl
@[simp] theorem State.setV_fs (s : State) (x : Reg) (b : Byte) : (s.setV x b).fs = s.fs := rfl
@[simp] theorem State.setV_cfg (s : State) (x : Reg) (b : Byte) : (s.setV x b).cfg = s.cfg := rfl
@[simp] theorem State.setV_draws (s : State) (x : Reg) (b : Byte) : (s.setV x b).draws = s.draws := rfl

/-! ## `State.advance` -/

@[simp] theorem State.advance_mem (s : State) : (s.advance).mem = s.mem := rfl
@[simp] theorem State.advance_v (s : State) : (s.advance).v = s.v := rfl
@[simp] theorem State.advance_i (s : State) : (s.advance).i = s.i := rfl
@[simp] theorem State.advance_pc (s : State) : (s.advance).pc = s.pc + 2 := rfl
@[simp] theorem State.advance_stack (s : State) : (s.advance).stack = s.stack := rfl
@[simp] theorem State.advance_dt (s : State) : (s.advance).dt = s.dt := rfl
@[simp] theorem State.advance_st (s : State) : (s.advance).st = s.st := rfl
@[simp] theorem State.advance_fb (s : State) : (s.advance).fb = s.fb := rfl
@[simp] theorem State.advance_keys (s : State) : (s.advance).keys = s.keys := rfl
@[simp] theorem State.advance_kw (s : State) : (s.advance).kw = s.kw := rfl
@[simp] theorem State.advance_fs (s : State) : (s.advance).fs = s.fs := rfl
@[simp] theorem State.advance_cfg (s : State) : (s.advance).cfg = s.cfg := rfl
@[simp] theorem State.advance_draws (s : State) : (s.advance).draws = s.draws := rfl

/-! ## `State.skip` -/

@[simp] theorem State.skip_mem (s : State) : (s.skip).mem = s.mem := rfl
@[simp] theorem State.skip_v (s : State) : (s.skip).v = s.v := rfl
@[simp] theorem State.skip_i (s : State) : (s.skip).i = s.i := rfl
@[simp] theorem State.skip_pc (s : State) : (s.skip).pc = s.pc + 4 := rfl
@[simp] theorem State.skip_stack (s : State) : (s.skip).stack = s.stack := rfl
@[simp] theorem State.skip_dt (s : State) : (s.skip).dt = s.dt := rfl
@[simp] theorem State.skip_st (s : State) : (s.skip).st = s.st := rfl
@[simp] theorem State.skip_fb (s : State) : (s.skip).fb = s.fb := rfl
@[simp] theorem State.skip_keys (s : State) : (s.skip).keys = s.keys := rfl
@[simp] theorem State.skip_kw (s : State) : (s.skip).kw = s.kw := rfl
@[simp] theorem State.skip_fs (s : State) : (s.skip).fs = s.fs := rfl
@[simp] theorem State.skip_cfg (s : State) : (s.skip).cfg = s.cfg := rfl
@[simp] theorem State.skip_draws (s : State) : (s.skip).draws = s.draws := rfl

/-! ## `State.jump` -/

@[simp] theorem State.jump_mem (s : State) (a : Word) : (s.jump a).mem = s.mem := rfl
@[simp] theorem State.jump_v (s : State) (a : Word) : (s.jump a).v = s.v := rfl
@[simp] theorem State.jump_i (s : State) (a : Word) : (s.jump a).i = s.i := rfl
@[simp] theorem State.jump_pc (s : State) (a : Word) : (s.jump a).pc = a := rfl
@[simp] theorem State.jump_stack (s : State) (a : Word) : (s.jump a).stack = s.stack := rfl
@[simp] theorem State.jump_dt (s : State) (a : Word) : (s.jump a).dt = s.dt := rfl
@[simp] theorem State.jump_st (s : State) (a : Word) : (s.jump a).st = s.st := rfl
@[simp] theorem State.jump_fb (s : State) (a : Word) : (s.jump a).fb = s.fb := rfl
@[simp] theorem State.jump_keys (s : State) (a : Word) : (s.jump a).keys = s.keys := rfl
@[simp] theorem State.jump_kw (s : State) (a : Word) : (s.jump a).kw = s.kw := rfl
@[simp] theorem State.jump_fs (s : State) (a : Word) : (s.jump a).fs = s.fs := rfl
@[simp] theorem State.jump_cfg (s : State) (a : Word) : (s.jump a).cfg = s.cfg := rfl
@[simp] theorem State.jump_draws (s : State) (a : Word) : (s.jump a).draws = s.draws := rfl

/-! ## `State.skipIf` -/

@[simp] theorem State.skipIf_mem (s : State) (c : Bool) : (s.skipIf c).mem = s.mem := by cases c <;> rfl
@[simp] theorem State.skipIf_v (s : State) (c : Bool) : (s.skipIf c).v = s.v := by cases c <;> rfl
@[simp] theorem State.skipIf_i (s : State) (c : Bool) : (s.skipIf c).i = s.i := by cases c <;> rfl
@[simp] theorem State.skipIf_pc (s : State) (c : Bool) : (s.skipIf c).pc = if c then s.pc + 4 else s.pc + 2 := by cases c <;> rfl
@[simp] theorem State.skipIf_stack (s : State) (c : Bool) : (s.skipIf c).stack = s.stack := by cases c <;> rfl
@[simp] theorem State.skipIf_dt (s : State) (c : Bool) : (s.skipIf c).dt = s.dt := by cases c <;> rfl
@[simp] theorem State.skipIf_st (s : State) (c : Bool) : (s.skipIf c).st = s.st := by cases c <;> rfl
@[simp] theorem State.skipIf_fb (s : State) (c : Bool) : (s.skipIf c).fb = s.fb := by cases c <;> rfl
@[simp] theorem State.skipIf_keys (s : State) (c : Bool) : (s.skipIf c).keys = s.keys := by cases c <;> rfl
@[simp] theorem State.skipIf_kw (s : State) (c : Bool) : (s.skipIf c).kw = s.kw := by cases c <;> rfl
@[simp] theorem State.skipIf_fs (s : State) (c : Bool) : (s.skipIf c).fs = s.fs := by cases c <;> rfl
@[simp] theorem State.skipIf_cfg (s : State) (c : Bool) : (s.skipIf c).cfg = s.cfg := by cases c <;> rfl
@[simp] theorem State.skipIf_draws (s : State) (c : Bool) : (s.skipIf c).draws = s.draws := by cases c <;> rfl

/-! ## `writeResultFlag` -/

@[simp] theorem writeResultFlag_mem (s : State) (x : Reg) (r f : Byte) : (writeResultFlag s x r f).mem = s.mem := rfl
@[simp] theorem writeResultFlag_v (s : State) (x : Reg) (r f : Byte) : (writeResultFlag s x r f).v = (s.v.set x r).set regVF f := rfl
@[simp] theorem writeResultFlag_i (s : State) (x : Reg) (r f : Byte) : (writeResultFlag s x r f).i = s.i := rfl
@[simp] theorem writeResultFlag_pc (s : State) (x : Reg) (r f : Byte) : (writeResultFlag s x r f).pc = s.pc := rfl
@[simp] theorem writeResultFlag_stack (s : State) (x : Reg) (r f : Byte) : (writeResultFlag s x r f).stack = s.stack := rfl
@[simp] theorem writeResultFlag_dt (s : State) (x : Reg) (r f : Byte) : (writeResultFlag s x r f).dt = s.dt := rfl
@[simp] theorem writeResultFlag_st (s : State) (x : Reg) (r f : Byte) : (writeResultFlag s x r f).st = s.st := rfl
@[simp] theorem writeResultFlag_fb (s : State) (x : Reg) (r f : Byte) : (writeResultFlag s x r f).fb = s.fb := rfl
@[simp] theorem writeResultFlag_keys (s : State) (x : Reg) (r f : Byte) : (writeResultFlag s x r f).keys = s.keys := rfl
@[simp] theorem writeResultFlag_kw (s : State) (x : Reg) (r f : Byte) : (writeResultFlag s x r f).kw = s.kw := rfl
@[simp] theorem writeResultFlag_fs (s : State) (x : Reg) (r f : Byte) : (writeResultFlag s x r f).fs = s.fs := rfl
@[simp] theorem writeResultFlag_cfg (s : State) (x : Reg) (r f : Byte) : (writeResultFlag s x r f).cfg = s.cfg := rfl
@[simp] theorem writeResultFlag_draws (s : State) (x : Reg) (r f : Byte) : (writeResultFlag s x r f).draws = s.draws := rfl

/-! ## Reads of a register and of a byte -/

@[simp] theorem State.getV_setV_same (s : State) (x : Reg) (b : Byte) : (s.setV x b).getV x = b := by
  simp [State.getV]

theorem State.getV_setV_ne (s : State) (x z : Reg) (b : Byte) (h : z ≠ x) : (s.setV x b).getV z = s.getV z := by
  have h' : ¬ (x : Nat) = z := fun e => h (Fin.ext e.symm)
  simp [State.getV, h']

/-- A register reads the same in two states with the same `V`. -/
theorem State.getV_congr (s t : State) (h : t.v = s.v) (x : Reg) : t.getV x = s.getV x := by
  simp [State.getV, h]

/-- A byte reads the same in two states with the same memory and FONT. -/
theorem State.byteAt_congr (s t : State) (hm : t.mem = s.mem) (hc : t.cfg = s.cfg) (a : Nat) :
    t.byteAt a = s.byteAt a := by
  simp [State.byteAt, hm, hc]

@[simp] theorem State.getV_advance (s : State) (z : Reg) : s.advance.getV z = s.getV z := rfl
@[simp] theorem State.getV_jump (s : State) (a : Word) (z : Reg) : (s.jump a).getV z = s.getV z := rfl
@[simp] theorem State.getV_skipIf (s : State) (c : Bool) (z : Reg) : (s.skipIf c).getV z = s.getV z := by
  cases c <;> rfl
@[simp] theorem State.byteAt_setV (s : State) (x : Reg) (b : Byte) (a : Nat) :
    (s.setV x b).byteAt a = s.byteAt a := rfl
@[simp] theorem State.byteAt_advance (s : State) (a : Nat) : s.advance.byteAt a = s.byteAt a := rfl
@[simp] theorem State.byteAt_jump (s : State) (p : Word) (a : Nat) : (s.jump p).byteAt a = s.byteAt a := rfl
@[simp] theorem State.byteAt_skipIf (s : State) (c : Bool) (a : Nat) : (s.skipIf c).byteAt a = s.byteAt a := by
  cases c <;> rfl
@[simp] theorem byteAt_writeResultFlag (s : State) (x : Reg) (r f : Byte) (a : Nat) :
    (writeResultFlag s x r f).byteAt a = s.byteAt a := rfl

/-- The flag is what VF holds afterwards, whichever the destination (R162). -/
@[simp] theorem getV_writeResultFlag_VF (s : State) (x : Reg) (r f : Byte) :
    (writeResultFlag s x r f).getV regVF = f := State.getV_setV_same _ _ _

theorem getV_writeResultFlag_dest (s : State) (x : Reg) (r f : Byte) (h : x ≠ regVF) :
    (writeResultFlag s x r f).getV x = r := by
  simp [writeResultFlag, State.getV_setV_ne _ _ _ _ h]

theorem getV_writeResultFlag_other (s : State) (x z : Reg) (r f : Byte) (h : z ≠ x) (hf : z ≠ regVF) :
    (writeResultFlag s x r f).getV z = s.getV z := by
  simp [writeResultFlag, State.getV_setV_ne _ _ _ _ h, State.getV_setV_ne _ _ _ _ hf]

/-! ## `rndWith` and `drawSprite` -/

@[simp] theorem rndWith_mem (r : Byte) (x : Reg) (kk : Byte) (s : State) : (rndWith r x kk s).mem = s.mem := rfl
@[simp] theorem rndWith_v (r : Byte) (x : Reg) (kk : Byte) (s : State) : (rndWith r x kk s).v = s.v.set x (r &&& kk) := rfl
@[simp] theorem rndWith_i (r : Byte) (x : Reg) (kk : Byte) (s : State) : (rndWith r x kk s).i = s.i := rfl
@[simp] theorem rndWith_pc (r : Byte) (x : Reg) (kk : Byte) (s : State) : (rndWith r x kk s).pc = s.pc + 2 := rfl
@[simp] theorem rndWith_stack (r : Byte) (x : Reg) (kk : Byte) (s : State) : (rndWith r x kk s).stack = s.stack := rfl
@[simp] theorem rndWith_dt (r : Byte) (x : Reg) (kk : Byte) (s : State) : (rndWith r x kk s).dt = s.dt := rfl
@[simp] theorem rndWith_st (r : Byte) (x : Reg) (kk : Byte) (s : State) : (rndWith r x kk s).st = s.st := rfl
@[simp] theorem rndWith_fb (r : Byte) (x : Reg) (kk : Byte) (s : State) : (rndWith r x kk s).fb = s.fb := rfl
@[simp] theorem rndWith_keys (r : Byte) (x : Reg) (kk : Byte) (s : State) : (rndWith r x kk s).keys = s.keys := rfl
@[simp] theorem rndWith_kw (r : Byte) (x : Reg) (kk : Byte) (s : State) : (rndWith r x kk s).kw = s.kw := rfl
@[simp] theorem rndWith_fs (r : Byte) (x : Reg) (kk : Byte) (s : State) : (rndWith r x kk s).fs = s.fs := rfl
@[simp] theorem rndWith_cfg (r : Byte) (x : Reg) (kk : Byte) (s : State) : (rndWith r x kk s).cfg = s.cfg := rfl
@[simp] theorem rndWith_draws (r : Byte) (x : Reg) (kk : Byte) (s : State) : (rndWith r x kk s).draws = s.draws + 1 := rfl
@[simp] theorem drawSprite_mem (x y : Reg) (rows : List Byte) (s : State) :
    (drawSprite x y rows s).mem = s.mem := rfl
@[simp] theorem drawSprite_i (x y : Reg) (rows : List Byte) (s : State) :
    (drawSprite x y rows s).i = s.i := rfl
@[simp] theorem drawSprite_pc (x y : Reg) (rows : List Byte) (s : State) :
    (drawSprite x y rows s).pc = s.pc + 2 := rfl
@[simp] theorem drawSprite_stack (x y : Reg) (rows : List Byte) (s : State) :
    (drawSprite x y rows s).stack = s.stack := rfl
@[simp] theorem drawSprite_dt (x y : Reg) (rows : List Byte) (s : State) :
    (drawSprite x y rows s).dt = s.dt := rfl
@[simp] theorem drawSprite_st (x y : Reg) (rows : List Byte) (s : State) :
    (drawSprite x y rows s).st = s.st := rfl
@[simp] theorem drawSprite_keys (x y : Reg) (rows : List Byte) (s : State) :
    (drawSprite x y rows s).keys = s.keys := rfl
@[simp] theorem drawSprite_kw (x y : Reg) (rows : List Byte) (s : State) :
    (drawSprite x y rows s).kw = s.kw := rfl
@[simp] theorem drawSprite_fs (x y : Reg) (rows : List Byte) (s : State) :
    (drawSprite x y rows s).fs = s.fs := rfl
@[simp] theorem drawSprite_cfg (x y : Reg) (rows : List Byte) (s : State) :
    (drawSprite x y rows s).cfg = s.cfg := rfl
@[simp] theorem drawSprite_draws (x y : Reg) (rows : List Byte) (s : State) :
    (drawSprite x y rows s).draws = s.draws := rfl
theorem drawSprite_fb (x y : Reg) (rows : List Byte) (s : State) :
    (drawSprite x y rows s).fb = (drawRows ⟨s.fb, false⟩ (s.getV x) (s.getV y) 0 rows).fb := rfl
theorem getV_drawSprite_VF (x y : Reg) (rows : List Byte) (s : State) :
    (drawSprite x y rows s).getV regVF =
      collisionFlag (drawRows ⟨s.fb, false⟩ (s.getV x) (s.getV y) 0 rows).hit := State.getV_setV_same _ _ _
theorem getV_drawSprite_other (x y z : Reg) (rows : List Byte) (s : State) (h : z ≠ regVF) :
    (drawSprite x y rows s).getV z = s.getV z := State.getV_setV_ne _ _ _ _ h

/-! ## Loading a range of registers -/

@[simp] theorem loadRegs_mem (bytes : List Byte) (s : State) (k : Nat) : (loadRegs s k bytes).mem = s.mem := by
  induction bytes generalizing s k with
  | nil => rfl
  | cons b bs ih => rw [loadRegs, ih]; split <;> rfl

@[simp] theorem loadRegs_i (bytes : List Byte) (s : State) (k : Nat) : (loadRegs s k bytes).i = s.i := by
  induction bytes generalizing s k with
  | nil => rfl
  | cons b bs ih => rw [loadRegs, ih]; split <;> rfl

@[simp] theorem loadRegs_pc (bytes : List Byte) (s : State) (k : Nat) : (loadRegs s k bytes).pc = s.pc := by
  induction bytes generalizing s k with
  | nil => rfl
  | cons b bs ih => rw [loadRegs, ih]; split <;> rfl

@[simp] theorem loadRegs_stack (bytes : List Byte) (s : State) (k : Nat) : (loadRegs s k bytes).stack = s.stack := by
  induction bytes generalizing s k with
  | nil => rfl
  | cons b bs ih => rw [loadRegs, ih]; split <;> rfl

@[simp] theorem loadRegs_dt (bytes : List Byte) (s : State) (k : Nat) : (loadRegs s k bytes).dt = s.dt := by
  induction bytes generalizing s k with
  | nil => rfl
  | cons b bs ih => rw [loadRegs, ih]; split <;> rfl

@[simp] theorem loadRegs_st (bytes : List Byte) (s : State) (k : Nat) : (loadRegs s k bytes).st = s.st := by
  induction bytes generalizing s k with
  | nil => rfl
  | cons b bs ih => rw [loadRegs, ih]; split <;> rfl

@[simp] theorem loadRegs_fb (bytes : List Byte) (s : State) (k : Nat) : (loadRegs s k bytes).fb = s.fb := by
  induction bytes generalizing s k with
  | nil => rfl
  | cons b bs ih => rw [loadRegs, ih]; split <;> rfl

@[simp] theorem loadRegs_keys (bytes : List Byte) (s : State) (k : Nat) : (loadRegs s k bytes).keys = s.keys := by
  induction bytes generalizing s k with
  | nil => rfl
  | cons b bs ih => rw [loadRegs, ih]; split <;> rfl

@[simp] theorem loadRegs_kw (bytes : List Byte) (s : State) (k : Nat) : (loadRegs s k bytes).kw = s.kw := by
  induction bytes generalizing s k with
  | nil => rfl
  | cons b bs ih => rw [loadRegs, ih]; split <;> rfl

@[simp] theorem loadRegs_fs (bytes : List Byte) (s : State) (k : Nat) : (loadRegs s k bytes).fs = s.fs := by
  induction bytes generalizing s k with
  | nil => rfl
  | cons b bs ih => rw [loadRegs, ih]; split <;> rfl

@[simp] theorem loadRegs_cfg (bytes : List Byte) (s : State) (k : Nat) : (loadRegs s k bytes).cfg = s.cfg := by
  induction bytes generalizing s k with
  | nil => rfl
  | cons b bs ih => rw [loadRegs, ih]; split <;> rfl

@[simp] theorem loadRegs_draws (bytes : List Byte) (s : State) (k : Nat) : (loadRegs s k bytes).draws = s.draws := by
  induction bytes generalizing s k with
  | nil => rfl
  | cons b bs ih => rw [loadRegs, ih]; split <;> rfl

@[simp] theorem byteAt_loadRegs (bytes : List Byte) (s : State) (k a : Nat) :
    (loadRegs s k bytes).byteAt a = s.byteAt a := State.byteAt_congr _ _ (by simp) (by simp) a

/-- What a register holds after bytes have been copied into the registers from number `k` on (R206). -/
theorem getV_loadRegs (bytes : List Byte) (s : State) (k : Nat) (z : Reg) :
    (loadRegs s k bytes).getV z = if h : k ≤ z ∧ z < k + bytes.length then bytes[z.val - k] else s.getV z := by
  induction bytes generalizing s k with
  | nil =>
    have h : ¬ (k ≤ z.val ∧ z.val < k) := by omega
    simp [loadRegs, h]
  | cons b bs ih =>
    rw [loadRegs, ih]
    by_cases h1 : k + 1 ≤ z.val ∧ z.val < k + 1 + bs.length
    · have h2 : k ≤ z.val ∧ z.val < k + (b :: bs).length := by simp; omega
      have h3 : z.val - k = (z.val - (k + 1)) + 1 := by omega
      simp only [h1, h2, and_self, dite_true, h3, List.getElem_cons_succ]
    · simp only [h1, dite_false]
      by_cases hz : z.val = k
      · have hk : k < 16 := by omega
        have h2 : k ≤ z.val ∧ z.val < k + (b :: bs).length := by simp; omega
        have e : z = ⟨k, hk⟩ := Fin.ext hz
        subst e
        simp [hk]
      · have h2 : ¬ (k ≤ z.val ∧ z.val < k + (b :: bs).length) := by simp; omega
        simp only [h2, dite_false]
        split
        · rename_i hk
          exact State.getV_setV_ne _ _ _ _ (fun e => hz (by rw [e]))
        · rfl

end Sys2Proof.Machine
end

