-- ==== Sys2Proof/Laws/Framebuffer.lean ====
section
/-! SUPPORT. The laws of the framebuffer: what one pixel, one sprite row and a whole sprite do to each pixel, and when
a collision is recorded (43_display.md R231-R234). -/

namespace Sys2Proof.Machine

theorem pixel_setPixel (fb : Frame) (r r' : Fin 32) (c c' : Fin 64) (b : Bool) :
    pixel (setPixel fb r c b) r' c' = if r' = r ∧ c' = c then b else pixel fb r' c' := by
  have hr : (r.val = r'.val) = (r' = r) := by simp [Fin.ext_iff, eq_comm]
  have hc : (c.val = c'.val) = (c' = c) := by simp [Fin.ext_iff, eq_comm]
  simp only [pixel, setPixel, Fin.getElem_fin, Vector.getElem_set, hr]
  by_cases h : r' = r
  · subst h
    simp [Vector.getElem_set, hc]
  · simp [h]

@[simp] theorem pixel_clearFrame (r : Fin 32) (c : Fin 64) : pixel clearFrame r c = false := by
  simp [pixel, clearFrame]

/-- Two framebuffers with the same pixels are the same. -/
theorem frame_ext (f g : Frame) (h : ∀ r c, pixel f r c = pixel g r c) : f = g := by
  apply Vector.ext
  intro r hr
  apply Vector.ext
  intro c hc
  exact h ⟨r, hr⟩ ⟨c, hc⟩

theorem pixelCol_inj (cx : Byte) (i j : Nat) (hi : i < 8) (hj : j < 8) (h : pixelCol cx i = pixelCol cx j) :
    i = j := by
  have := congrArg Fin.val h
  simp only [pixelCol] at this
  omega

theorem pixelRow_inj (cy : Byte) (i j : Nat) (hi : i < 32) (hj : j < 32) (h : pixelRow cy i = pixelRow cy j) :
    i = j := by
  have := congrArg Fin.val h
  simp only [pixelRow] at this
  omega

/-! ## A draw as a list of dots -/

/-- A dot of a draw: its framebuffer row and column, and the sprite bit that lands there. -/
abbrev Dot := Fin 32 × Fin 64 × Bool

/-- The dots of the sprite rows from row number `k` on, in the order they are drawn (R231). -/
def dots (cx cy : Byte) (k : Nat) : List Byte → List Dot
  | [] => []
  | row :: rest =>
    [0, 1, 2, 3, 4, 5, 6, 7].map (fun c => (pixelRow cy k, pixelCol cx c, spriteBit row c)) ++ dots cx cy (k + 1) rest

/-- A draw is the drawing of its dots, one after another. -/
theorem drawRows_eq_foldl (cx cy : Byte) (rows : List Byte) (cv : Canvas) (k : Nat) :
    drawRows cv cx cy k rows = (dots cx cy k rows).foldl (fun acc d => drawPixel acc d.1 d.2.1 d.2.2) cv := by
  induction rows generalizing cv k with
  | nil => rfl
  | cons row rest ih => rw [drawRows, ih, dots, List.foldl_append]; rfl

theorem pixel_drawPixel (cv : Canvas) (r r' : Fin 32) (c c' : Fin 64) (b : Bool) :
    pixel (drawPixel cv r c b).fb r' c' = (pixel cv.fb r' c' ^^ (r == r' && c == c' && b)) := by
  simp only [drawPixel, pixel_setPixel]
  by_cases hr : r' = r
  · by_cases hc : c' = c
    · simp [hr, hc]
    · have : (c == c') = false := by simpa using Ne.symm hc
      simp [hr, hc, this]
  · have : (r == r') = false := by simpa using Ne.symm hr
    simp [hr, this]

/-- No two dots lie on the same pixel. -/
abbrev DotsApart (l : List Dot) : Prop := l.Pairwise (fun d e => ¬ (d.1 = e.1 ∧ d.2.1 = e.2.1))

/-- Drawing dots that lie apart XORs each pixel with the bit of the dot on it, if any (R231). -/
theorem pixel_foldl_dots (l : List Dot) (h : DotsApart l) (cv : Canvas) (r : Fin 32) (c : Fin 64) :
    pixel (l.foldl (fun acc d => drawPixel acc d.1 d.2.1 d.2.2) cv).fb r c =
      (pixel cv.fb r c ^^ l.any (fun d => d.1 == r && d.2.1 == c && d.2.2)) := by
  induction l generalizing cv with
  | nil => simp
  | cons d l ih =>
    obtain ⟨hd, hl⟩ := List.pairwise_cons.mp h
    rw [List.foldl_cons, ih hl, pixel_drawPixel, List.any_cons, Bool.xor_assoc]
    congr 1
    by_cases he : d.1 = r ∧ d.2.1 = c
    · have : l.any (fun d => d.1 == r && d.2.1 == c && d.2.2) = false := by
        rw [List.any_eq_false]
        intro e hel hcon
        simp only [Bool.and_eq_true, beq_iff_eq] at hcon
        exact hd e hel ⟨he.1.trans hcon.1.1.symm, he.2.trans hcon.1.2.symm⟩
      simp [this]
    · have : (d.1 == r && d.2.1 == c && d.2.2) = false := by
        by_cases h1 : d.1 = r <;> by_cases h2 : d.2.1 = c <;> simp_all
      simp [this]

/-- The collision of a draw is recorded exactly when some set dot lies on a pixel that was set before (R234). -/
theorem hit_foldl_dots (l : List Dot) (h : DotsApart l) (cv : Canvas) :
    (l.foldl (fun acc d => drawPixel acc d.1 d.2.1 d.2.2) cv).hit =
      (cv.hit || l.any (fun d => d.2.2 && pixel cv.fb d.1 d.2.1)) := by
  induction l generalizing cv with
  | nil => simp
  | cons d l ih =>
    obtain ⟨hd, hl⟩ := List.pairwise_cons.mp h
    have same : l.any (fun e => e.2.2 && pixel (drawPixel cv d.1 d.2.1 d.2.2).fb e.1 e.2.1) =
        l.any (fun e => e.2.2 && pixel cv.fb e.1 e.2.1) := by
      rw [Bool.eq_iff_iff]
      simp only [List.any_eq_true]
      refine exists_congr fun e => and_congr_right fun he => ?_
      have : (d.1 == e.1 && d.2.1 == e.2.1 && d.2.2) = false := by
        have := hd e he
        by_cases h1 : d.1 = e.1 <;> by_cases h2 : d.2.1 = e.2.1 <;> simp_all
      rw [pixel_drawPixel, this]
      simp
    rw [List.foldl_cons, ih hl, same, List.any_cons]
    simp [drawPixel, Bool.or_assoc]

/-- What the dots of a sprite are (R232, R233). -/
theorem mem_dots (cx cy : Byte) (rows : List Byte) (k : Nat) (d : Dot) :
    d ∈ dots cx cy k rows ↔ ∃ (i : Nat) (hi : i < rows.length) (j : Nat), j < 8 ∧
      d = (pixelRow cy (k + i), pixelCol cx j, spriteBit rows[i] j) := by
  induction rows generalizing k with
  | nil => simp [dots]
  | cons row rest ih =>
    rw [dots, List.mem_append, ih, List.mem_map]
    constructor
    · rintro (⟨j, hj, rfl⟩ | ⟨i, hi, j, hj, rfl⟩)
      · refine ⟨0, by simp, j, ?_, by simp⟩
        simp only [List.mem_cons, List.not_mem_nil, or_false] at hj
        omega
      · exact ⟨i + 1, by simpa using hi, j, hj, by simp [Nat.add_assoc, Nat.add_comm 1]⟩
    · rintro ⟨i, hi, j, hj, rfl⟩
      cases i with
      | zero =>
        refine .inl ⟨j, ?_, by simp⟩
        simp only [List.mem_cons, List.not_mem_nil, or_false]
        omega
      | succ i =>
        exact .inr ⟨i, by simpa using hi, j, hj, by simp [Nat.add_assoc, Nat.add_comm 1]⟩

/-- The dots of at most 32 sprite rows lie apart: 8 columns are distinct modulo 64 and 32 rows modulo 32 (R231). -/
theorem dots_apart (cx cy : Byte) (rows : List Byte) (k : Nat) (h : k + rows.length ≤ 32) :
    DotsApart (dots cx cy k rows) := by
  induction rows generalizing k with
  | nil => exact List.Pairwise.nil
  | cons row rest ih =>
    simp only [List.length_cons] at h
    refine List.pairwise_append.mpr ⟨?_, ih (k + 1) (by omega), ?_⟩
    · refine List.pairwise_map.mpr ?_
      have : ([0, 1, 2, 3, 4, 5, 6, 7] : List Nat).Pairwise (fun i j => i < 8 ∧ j < 8 ∧ i ≠ j) := by decide
      exact this.imp fun ⟨hi, hj, hne⟩ hcon => hne (pixelCol_inj cx _ _ hi hj hcon.2)
    · rintro d hd e he ⟨hr, -⟩
      obtain ⟨j, -, rfl⟩ := List.mem_map.mp hd
      obtain ⟨i, hi, j', -, rfl⟩ := (mem_dots cx cy rest (k + 1) e).mp he
      have := pixelRow_inj cy k (k + 1 + i) (by omega) (by omega) hr
      omega

end Sys2Proof.Machine
end

