-- ==== Sys2Proof/Laws/Memory.lean ====
section
/-! SUPPORT. The laws of memory: read after write, the canonical form, and what the byte sequences of an instruction
do, with the fault address in closed form. -/

namespace Sys2Proof.Machine

variable {font : Vector Byte 80}

/-! ## One byte -/

theorem memLookup_consCell (a b : Nat) (w : Byte) (rest : Memory) (h : memLookup font rest a = resetByte font a) :
    memLookup font (consCell font a w rest) b = if b = a then w else memLookup font rest b := by
  unfold consCell
  by_cases hw : w = resetByte font a <;> by_cases hb : b = a <;> simp [hw, hb, memLookup, h]

/-- An address below every listed one reads as its reset content. -/
theorem memLookup_below (m : Memory) (a : Nat) (h : ∀ c ∈ m, a < c.1) : memLookup font m a = resetByte font a := by
  induction m with
  | nil => rfl
  | cons c rest ih =>
    have h1 : a ≠ c.1 := Nat.ne_of_lt (h c (by simp))
    simp only [memLookup, h1, if_false]
    exact ih fun d hd => h d (by simp [hd])

/-- READ AFTER WRITE: the address written holds the value, every other address holds what it held. -/
theorem memLookup_memStore (m : Memory) (hm : m.Pairwise (fun c d => c.1 < d.1)) (a b : Nat) (w : Byte) :
    memLookup font (memStore font m a w) b = if b = a then w else memLookup font m b := by
  induction m with
  | nil => exact memLookup_consCell a b w [] rfl
  | cons c rest ih =>
    obtain ⟨k, u⟩ := c
    have hrest := (List.pairwise_cons.mp hm).1
    unfold memStore
    split
    · rename_i hlt
      refine memLookup_consCell a b w _ (memLookup_below _ a ?_)
      intro d hd
      rcases List.mem_cons.mp hd with rfl | hd
      · exact hlt
      · exact Nat.lt_trans hlt (hrest d hd)
    · split
      · rename_i hak
        rw [memLookup_consCell a b w rest (memLookup_below _ a fun d hd => hak ▸ hrest d hd)]
        by_cases hb : b = a <;> simp [memLookup, hb, ← hak]
      · rename_i hak
        have ih' := ih (List.pairwise_cons.mp hm).2
        by_cases hbk : b = k
        · have : ¬ b = a := fun e => hak (by omega)
          simp [memLookup, hbk]
          intro h; omega
        · simp [memLookup, hbk, ih']

/-- A write leaves every other address alone, whatever the list is. -/
theorem memLookup_memStore_ne (m : Memory) (a b : Nat) (w : Byte) (h : b ≠ a) :
    memLookup font (memStore font m a w) b = memLookup font m b := by
  have hcons : ∀ rest, memLookup font (consCell font a w rest) b = memLookup font rest b := by
    intro rest
    unfold consCell
    split
    · rfl
    · simp [memLookup, h]
  induction m with
  | nil => exact hcons []
  | cons c rest ih =>
    unfold memStore
    split
    · exact hcons _
    · split
      · rename_i hak
        simp [hcons, memLookup, ← hak, h]
      · simp [memLookup, ih]

theorem mem_memStore (m : Memory) (a : Nat) (w : Byte) (c : Host.Cell) (hc : c ∈ memStore font m a w) :
    c ∈ m ∨ (c = (a, w) ∧ w ≠ resetByte font a) := by
  have hcons : ∀ rest, c ∈ consCell font a w rest → c ∈ rest ∨ (c = (a, w) ∧ w ≠ resetByte font a) := by
    intro rest h
    unfold consCell at h
    split at h
    · exact .inl h
    · rename_i hw
      rcases List.mem_cons.mp h with h | h
      · exact .inr ⟨h, hw⟩
      · exact .inl h
  induction m with
  | nil => exact hcons [] hc
  | cons d rest ih =>
    unfold memStore at hc
    split at hc
    · exact hcons _ hc
    · split at hc
      · exact (hcons _ hc).imp_left (List.mem_cons_of_mem _)
      · rcases List.mem_cons.mp hc with h | h
        · exact .inl (by simp [h])
        · exact (ih h).imp_left (List.mem_cons_of_mem _)

theorem pairwise_consCell (a : Nat) (w : Byte) (rest : Memory) (h : ∀ c ∈ rest, a < c.1)
    (hr : rest.Pairwise (fun c d => c.1 < d.1)) : (consCell font a w rest).Pairwise (fun c d => c.1 < d.1) := by
  unfold consCell
  split
  · exact hr
  · exact List.pairwise_cons.mpr ⟨h, hr⟩

theorem pairwise_memStore (m : Memory) (hm : m.Pairwise (fun c d => c.1 < d.1)) (a : Nat) (w : Byte) :
    (memStore font m a w).Pairwise (fun c d => c.1 < d.1) := by
  induction m with
  | nil => exact pairwise_consCell a w [] (by simp) List.Pairwise.nil
  | cons c rest ih =>
    obtain ⟨hrest, hp⟩ := List.pairwise_cons.mp hm
    unfold memStore
    split
    · rename_i hlt
      refine pairwise_consCell a w _ (fun d hd => ?_) hm
      rcases List.mem_cons.mp hd with rfl | hd
      · exact hlt
      · exact Nat.lt_trans hlt (hrest d hd)
    · split
      · rename_i hak
        exact pairwise_consCell a w rest (fun d hd => hak ▸ hrest d hd) hp
      · rename_i hlt hne
        refine List.pairwise_cons.mpr ⟨fun d hd => ?_, ih hp⟩
        rcases mem_memStore rest a w d hd with h | ⟨rfl, -⟩
        · exact hrest d h
        · show c.1 < a
          omega

/-- A write inside the address space keeps the canonical form. -/
theorem wf_memStore (m : Memory) (hm : Memory.wf font m) (a : Nat) (w : Byte) (ha : a < memSize) :
    Memory.wf font (memStore font m a w) := by
  refine ⟨pairwise_memStore m hm.1 a w, fun c hc => ?_⟩
  rcases mem_memStore m a w c hc with h | ⟨rfl, hw⟩
  · exact hm.2 c h
  · exact ⟨ha, hw⟩

/-- The empty memory is canonical. -/
theorem wf_nil : Memory.wf font [] := ⟨List.Pairwise.nil, by simp⟩

/-! ## Byte sequences -/

/-- A sequence of writes inside the address space keeps the canonical form. -/
theorem wf_copyImage (bytes : List Byte) (m : Memory) (hm : Memory.wf font m) (a : Nat)
    (h : a + bytes.length ≤ memSize) : Memory.wf font (copyImage font m a bytes) := by
  induction bytes generalizing m a with
  | nil => exact hm
  | cons b bs ih =>
    simp only [List.length_cons] at h
    exact ih _ (wf_memStore m hm a b (by omega)) _ (by omega)

/-- Outside the written range every address holds what it held. -/
theorem memLookup_copyImage_outside (bytes : List Byte) (m : Memory) (a b : Nat)
    (h : ¬ (a ≤ b ∧ b < a + bytes.length)) : memLookup font (copyImage font m a bytes) b = memLookup font m b := by
  induction bytes generalizing m a with
  | nil => rfl
  | cons c cs ih =>
    simp only [List.length_cons] at h
    rw [copyImage, ih _ _ (by omega), memLookup_memStore_ne _ _ _ _ (by omega)]

/-- Inside the written range each address holds its byte of the sequence. -/
theorem memLookup_copyImage_inside (bytes : List Byte) (m : Memory) (hm : m.Pairwise (fun c d => c.1 < d.1))
    (a k : Nat) (h : k < bytes.length) : memLookup font (copyImage font m a bytes) (a + k) = bytes[k] := by
  induction bytes generalizing m a k with
  | nil => simp at h
  | cons c cs ih =>
    rw [copyImage]
    cases k with
    | zero =>
      rw [memLookup_copyImage_outside _ _ _ _ (by omega), memLookup_memStore m hm]
      simp
    | succ k =>
      simp only [List.length_cons] at h
      have e : a + (k + 1) = a + 1 + k := by omega
      rw [e, ih _ (pairwise_memStore m hm a c) _ _ (by omega)]
      simp

/-- `MemRead` inside and outside the address space (R72). -/
theorem memRead_inside (s : State) (a : Nat) (h : a < memSize) : memRead s a = .ok (s.byteAt a) := by simp [memRead, h]
theorem memRead_outside (s : State) (a : Nat) (h : ¬ a < memSize) : memRead s a = .error a := by simp [memRead, h]

/-- A read of `n` bytes that all exist gives them in order (R87, R200). -/
theorem readBytes_inside (s : State) (n a : Nat) (h : n = 0 ∨ a + n ≤ memSize) :
    readBytes s a n = .ok ((List.range n).map (fun k => s.byteAt (a + k))) := by
  induction n generalizing a with
  | zero => rfl
  | succ n ih =>
    rw [readBytes, memRead_inside s a (by omega)]
    simp only
    rw [ih (a + 1) (by omega), List.range_succ_eq_map]
    simp [Function.comp_def, Nat.add_assoc, Nat.add_comm 1]

/-- A read of bytes of which one does not exist answers the lowest such address (R87, R200). -/
theorem readBytes_outside (s : State) (n a : Nat) (h : ¬ (n = 0 ∨ a + n ≤ memSize)) :
    readBytes s a n = .error (max a memSize) := by
  induction n generalizing a with
  | zero => simp at h
  | succ n ih =>
    rw [readBytes]
    by_cases ha : a < memSize
    · rw [memRead_inside s a ha]
      simp only
      rw [ih (a + 1) (by omega)]
      simp only [Except.error.injEq]
      omega
    · rw [memRead_outside s a ha]
      simp only [Except.error.injEq]
      omega

/-- A write of bytes whose addresses all exist changes memory only, as `copyImage` does (R87, R200). -/
theorem writeBytes_inside (bytes : List Byte) (s : State) (a : Nat) (h : bytes = [] ∨ a + bytes.length ≤ memSize) :
    writeBytes s a bytes = .ok { s with mem := copyImage s.cfg.font s.mem a bytes } := by
  induction bytes generalizing s a with
  | nil => rfl
  | cons b bs ih =>
    simp only [List.length_cons, reduceCtorEq, false_or] at h
    have ha : a < memSize := by omega
    simp only [writeBytes, memWrite, ha, if_true]
    rw [ih _ _ (by cases bs <;> simp at h ⊢; omega)]
    rfl

/-- A write of bytes of which one address does not exist answers the lowest such address (R87, R200). -/
theorem writeBytes_outside (bytes : List Byte) (s : State) (a : Nat)
    (h : ¬ (bytes = [] ∨ a + bytes.length ≤ memSize)) : writeBytes s a bytes = .error (max a memSize) := by
  induction bytes generalizing s a with
  | nil => simp at h
  | cons b bs ih =>
    simp only [List.length_cons, reduceCtorEq, false_or] at h
    by_cases ha : a < memSize
    · simp only [writeBytes, memWrite, ha, if_true]
      rw [ih _ _ (by cases bs <;> simp at h ⊢ <;> omega)]
      simp only [Except.error.injEq]
      omega
    · simp only [writeBytes, memWrite, ha, if_false, Except.error.injEq]
      omega

/-! ## The fetch -/

/-- A fetch of two existing bytes (R78, R80). -/
theorem fetch_inside (s : State) (h : s.pc.toNat + 1 < memSize) :
    fetch s = .ok (wordOfBytes (s.byteAt s.pc.toNat) (s.byteAt (s.pc.toNat + 1))) := by
  simp [fetch, memRead_inside s s.pc.toNat (by omega), memRead_inside s _ h]

/-- A fetch of which one byte does not exist answers the lowest such address (R80). -/
theorem fetch_outside (s : State) (h : ¬ s.pc.toNat + 1 < memSize) : fetch s = .error (max s.pc.toNat memSize) := by
  by_cases hp : s.pc.toNat < memSize
  · simp only [fetch, memRead_inside s s.pc.toNat hp, memRead_outside s _ h, Except.error.injEq]
    omega
  · simp only [fetch, memRead_outside s s.pc.toNat hp, Except.error.injEq]
    omega

/-! ## Every operation that changes memory keeps the canonical form -/

theorem wf_memWrite (s t : State) (a : Nat) (w : Byte) (hm : Memory.wf s.cfg.font s.mem)
    (h : memWrite s a w = .ok t) : Memory.wf t.cfg.font t.mem := by
  unfold memWrite at h
  split at h
  · simp only [Except.ok.injEq] at h
    subst h
    exact wf_memStore _ hm a w ‹_›
  · cases h

theorem wf_writeBytes (bytes : List Byte) (s t : State) (a : Nat) (hm : Memory.wf s.cfg.font s.mem)
    (h : writeBytes s a bytes = .ok t) : Memory.wf t.cfg.font t.mem := by
  induction bytes generalizing s a with
  | nil => cases h; exact hm
  | cons b bs ih =>
    unfold writeBytes at h
    split at h
    · cases h
    · exact ih _ _ (wf_memWrite _ _ _ _ hm ‹_›) h

/-- The memory right after reset lists nothing. -/
theorem wf_reset : Memory.wf State.reset.cfg.font State.reset.mem := wf_nil

end Sys2Proof.Machine
end

