-- ==== Sys2Proof/Laws/Exec.lean ====
section
/-! SUPPORT. What each meaning that may raise a fault answers, case by case, with the accesses in closed form; and
everything a step can do, once. -/

namespace Sys2Proof.Machine

/-! ## The meanings that may raise a fault -/

theorem regRange_length (s : State) (x : Reg) : (regRange s x).length = x.val + 1 := by
  simp [regRange]

theorem regRange_getElem (s : State) (x : Reg) (k : Nat) (h : k < (regRange s x).length) :
    (regRange s x)[k] = s.getV ⟨k, by rw [regRange_length] at h; omega⟩ := by
  simp [regRange, State.getV]

theorem execLdB_inside (x : Reg) (s : State) (h : s.i.toNat + 3 ≤ memSize) :
    execLdB x s = .next
      { s with mem := copyImage s.cfg.font s.mem s.i.toNat (bcdDigits (s.getV x)) }.advance := by
  rw [execLdB, effAddr, Nat.add_zero, writeBytes_inside _ _ _ (.inr (by simpa [bcdDigits] using h))]

theorem execLdB_outside (x : Reg) (s : State) (h : ¬ s.i.toNat + 3 ≤ memSize) :
    execLdB x s = raiseFault (.memoryOutOfRange s.pc (max s.i.toNat memSize)) s := by
  rw [execLdB, effAddr, Nat.add_zero, writeBytes_outside _ _ _ (by simpa [bcdDigits] using h)]

theorem execLdMemVx_inside (x : Reg) (s : State) (h : s.i.toNat + (x.val + 1) ≤ memSize) :
    execLdMemVx x s = .next
      { s with mem := copyImage s.cfg.font s.mem s.i.toNat (regRange s x), i := indexAfter s x }.advance := by
  rw [execLdMemVx, effAddr, Nat.add_zero, writeBytes_inside _ _ _ (.inr (by rw [regRange_length]; exact h))]

theorem execLdMemVx_outside (x : Reg) (s : State) (h : ¬ s.i.toNat + (x.val + 1) ≤ memSize) :
    execLdMemVx x s = raiseFault (.memoryOutOfRange s.pc (max s.i.toNat memSize)) s := by
  have hne : ¬ (regRange s x = [] ∨ s.i.toNat + (regRange s x).length ≤ memSize) := by
    rintro (he | hl)
    · have := regRange_length s x
      simp [he] at this
    · exact h (by rw [regRange_length] at hl; exact hl)
  rw [execLdMemVx, effAddr, Nat.add_zero, writeBytes_outside _ _ _ hne]

theorem execLdVxMem_inside (x : Reg) (s : State) (h : s.i.toNat + (x.val + 1) ≤ memSize) :
    execLdVxMem x s = .next
      { loadRegs s 0 ((List.range (x.val + 1)).map (fun k => s.byteAt (s.i.toNat + k)))
        with i := indexAfter s x }.advance := by
  rw [execLdVxMem, effAddr, Nat.add_zero, readBytes_inside _ _ _ (.inr h)]

theorem execLdVxMem_outside (x : Reg) (s : State) (h : ¬ s.i.toNat + (x.val + 1) ≤ memSize) :
    execLdVxMem x s = raiseFault (.memoryOutOfRange s.pc (max s.i.toNat memSize)) s := by
  rw [execLdVxMem, effAddr, Nat.add_zero, readBytes_outside _ _ _ (by omega)]

theorem execDrw_inside (x y : Reg) (n : Nibble) (s : State) (h : n.toNat = 0 ∨ s.i.toNat + n.toNat ≤ memSize) :
    execDrw x y n s = .next
      (drawSprite x y ((List.range n.toNat).map (fun k => s.byteAt (s.i.toNat + k))) s) := by
  rw [execDrw, effAddr, Nat.add_zero, readBytes_inside _ _ _ h]

theorem execDrw_outside (x y : Reg) (n : Nibble) (s : State)
    (h : ¬ (n.toNat = 0 ∨ s.i.toNat + n.toNat ≤ memSize)) :
    execDrw x y n s = raiseFault (.memoryOutOfRange s.pc (max s.i.toNat memSize)) s := by
  rw [execDrw, effAddr, Nat.add_zero, readBytes_outside _ _ _ h]

theorem push_room (s : State) (t : Word) (h : stackFull s.cfg.stackDepth s.stack.length = false) :
    push s t = some { s with stack := t :: s.stack } := by simp [push, h]

theorem push_full (s : State) (t : Word) (h : stackFull s.cfg.stackDepth s.stack.length = true) :
    push s t = none := by simp [push, h]

/-- A stack with room stays within its bound after one more entry (R38, R39). -/
theorem stackFull_eq_false (depth : Option Nat) (n : Nat) : stackFull depth n = false ↔ ∀ d ∈ depth, n + 1 ≤ d := by
  cases depth <;> simp [stackFull]

theorem keyIndex_inside (b : Byte) (h : b.toNat < 16) : keyIndex b = some ⟨b.toNat, h⟩ := by simp [keyIndex, h]
theorem keyIndex_outside (b : Byte) (h : ¬ b.toNat < 16) : keyIndex b = none := by simp [keyIndex, h]

/-! ## The pressed keys (44_input_timers.md R254) -/

theorem anyKey_iff (keys : Vector Bool 16) : anyKey keys = true ↔ ∃ k : Fin 16, keys[k] = true := by
  simp only [anyKey, Vector.any_eq_true]
  exact ⟨fun ⟨i, hi, h⟩ => ⟨⟨i, hi⟩, h⟩, fun ⟨k, h⟩ => ⟨k.val, k.isLt, h⟩⟩

theorem lowestKey_eq_none (keys : Vector Bool 16) : lowestKey keys = none ↔ ∀ k : Fin 16, keys[k] = false := by
  simp [lowestKey, List.find?_eq_none]

theorem lowestKey_eq_some (keys : Vector Bool 16) (k : Fin 16) (hk : keys[k] = true)
    (h : ∀ j : Fin 16, j < k → keys[j] = false) : lowestKey keys = some k := by
  cases hl : lowestKey keys with
  | none => simp [(lowestKey_eq_none keys).mp hl k] at hk
  | some m =>
    have hm : keys[m] = true := by simpa using List.find?_some hl
    rw [Option.some.injEq]
    rcases lt_trichotomy m k with hlt | heq | hgt
    · simp [h m hlt] at hm
    · exact heq
    · have hf := (List.find?_eq_some_iff_getElem.mp hl).2
      obtain ⟨i, hi, he, hbefore⟩ := hf
      have hi' : i = m.val := by
        have := congrArg Fin.val he
        simpa using this
      have := hbefore k.val (by omega)
      simp at this
      simp [this] at hk

/-! ## Everything a step can do -/

/-- A step that answers a state: FS was None, and either the fetch or the dispatch raised its fault, or the decoded
instruction ran (R107, R304). -/
theorem step_cases (s t : State) (h : step s = .next t) :
    s.fs = none ∧
    ((∃ a, fetch s = .error a ∧ t = { s with fs := some (.memoryOutOfRange s.pc a) }) ∨
     (∃ w e, fetch s = .ok w ∧ dispatch s.cfg.strictLowNibble w = .error e ∧
        t = { s with fs := some (.unimplementedInstruction s.pc w) }) ∨
     (∃ w i, fetch s = .ok w ∧ dispatch s.cfg.strictLowNibble w = .ok i ∧ exec i s = .next t)) := by
  unfold step at h
  split at h
  · cases h
  · refine ⟨by assumption, ?_⟩
    split at h
    · rename_i a hf
      simp only [raiseFault, Host.Outcome.next.injEq] at h
      exact .inl ⟨a, hf, h.symm⟩
    · rename_i w hf
      split at h
      · rename_i e hd
        simp only [raiseFault, Host.Outcome.next.injEq] at h
        exact .inr (.inl ⟨w, e, hf, hd, h.symm⟩)
      · rename_i i hd
        exact .inr (.inr ⟨w, i, hf, hd, h⟩)

end Sys2Proof.Machine
end

