-- ==== Sys2Proof/Laws/PerInstr.lean ====
section
/-! SUPPORT. Per instruction: its encoded word lies in its own row of the opcode map, and that row's constructor reads
every operand back (30_encoding.md R108, R116). -/

namespace Sys2Proof.Laws.EncodingRow

/-- Some row of the opcode map (under either STRICT_LOW_NIBBLE) matches the instruction's word and makes the
instruction from it. -/
def Statement (i : Instr) : Prop :=
  ∀ strict, ∃ r ∈ opcodeRows strict, r.matchesWord (encode i) = true ∧ r.make (encode i) = i

theorem cls : Statement (.cls) := by
  intro strict
  exact ⟨⟨0x00E0, 0xFFFF, fun _ => .cls⟩, by simp [opcodeRows],
    by decide, by simp⟩

theorem ret : Statement (.ret) := by
  intro strict
  exact ⟨⟨0x00EE, 0xFFFF, fun _ => .ret⟩, by simp [opcodeRows],
    by decide, by simp⟩

theorem sys (nnn : Addr12) : Statement (.sys nnn) := by
  intro strict
  exact ⟨⟨0x0000, 0xF000, fun w => .sys (fieldNnn w)⟩, by simp [opcodeRows],
    encAddress_in_row _ _ _ _ rfl, by simp [encode]⟩

theorem jp (nnn : Addr12) : Statement (.jp nnn) := by
  intro strict
  exact ⟨⟨0x1000, 0xF000, fun w => .jp (fieldNnn w)⟩, by simp [opcodeRows],
    encAddress_in_row _ _ _ _ rfl, by simp [encode]⟩

theorem call (nnn : Addr12) : Statement (.call nnn) := by
  intro strict
  exact ⟨⟨0x2000, 0xF000, fun w => .call (fieldNnn w)⟩, by simp [opcodeRows],
    encAddress_in_row _ _ _ _ rfl, by simp [encode]⟩

theorem seImm (x : Reg) (kk : Byte) : Statement (.seImm x kk) := by
  intro strict
  exact ⟨⟨0x3000, 0xF000, fun w => .seImm (fieldX w) (fieldKk w)⟩, by simp [opcodeRows],
    encRegImm_in_row _ _ _ _ _ rfl, by simp [encode]⟩

theorem sneImm (x : Reg) (kk : Byte) : Statement (.sneImm x kk) := by
  intro strict
  exact ⟨⟨0x4000, 0xF000, fun w => .sneImm (fieldX w) (fieldKk w)⟩, by simp [opcodeRows],
    encRegImm_in_row _ _ _ _ _ rfl, by simp [encode]⟩

theorem seReg (x y : Reg) : Statement (.seReg x y) := by
  intro strict
  exact ⟨⟨0x5000, lowNibbleMask strict, fun w => .seReg (fieldX w) (fieldY w)⟩, by simp [opcodeRows],
    by cases strict <;> [exact encRegReg_in_row _ _ _ _ _ _ rfl; exact encRegReg_in_subrow _ _ _ _ _ _ rfl], by simp [encode]⟩

theorem ldImm (x : Reg) (kk : Byte) : Statement (.ldImm x kk) := by
  intro strict
  exact ⟨⟨0x6000, 0xF000, fun w => .ldImm (fieldX w) (fieldKk w)⟩, by simp [opcodeRows],
    encRegImm_in_row _ _ _ _ _ rfl, by simp [encode]⟩

theorem addImm (x : Reg) (kk : Byte) : Statement (.addImm x kk) := by
  intro strict
  exact ⟨⟨0x7000, 0xF000, fun w => .addImm (fieldX w) (fieldKk w)⟩, by simp [opcodeRows],
    encRegImm_in_row _ _ _ _ _ rfl, by simp [encode]⟩

theorem ldReg (x y : Reg) : Statement (.ldReg x y) := by
  intro strict
  exact ⟨⟨0x8000, 0xF00F, fun w => .ldReg (fieldX w) (fieldY w)⟩, by simp [opcodeRows],
    encRegReg_in_subrow _ _ _ _ _ _ rfl, by simp [encode]⟩

theorem orReg (x y : Reg) : Statement (.orReg x y) := by
  intro strict
  exact ⟨⟨0x8001, 0xF00F, fun w => .orReg (fieldX w) (fieldY w)⟩, by simp [opcodeRows],
    encRegReg_in_subrow _ _ _ _ _ _ rfl, by simp [encode]⟩

theorem andReg (x y : Reg) : Statement (.andReg x y) := by
  intro strict
  exact ⟨⟨0x8002, 0xF00F, fun w => .andReg (fieldX w) (fieldY w)⟩, by simp [opcodeRows],
    encRegReg_in_subrow _ _ _ _ _ _ rfl, by simp [encode]⟩

theorem xorReg (x y : Reg) : Statement (.xorReg x y) := by
  intro strict
  exact ⟨⟨0x8003, 0xF00F, fun w => .xorReg (fieldX w) (fieldY w)⟩, by simp [opcodeRows],
    encRegReg_in_subrow _ _ _ _ _ _ rfl, by simp [encode]⟩

theorem addReg (x y : Reg) : Statement (.addReg x y) := by
  intro strict
  exact ⟨⟨0x8004, 0xF00F, fun w => .addReg (fieldX w) (fieldY w)⟩, by simp [opcodeRows],
    encRegReg_in_subrow _ _ _ _ _ _ rfl, by simp [encode]⟩

theorem subReg (x y : Reg) : Statement (.subReg x y) := by
  intro strict
  exact ⟨⟨0x8005, 0xF00F, fun w => .subReg (fieldX w) (fieldY w)⟩, by simp [opcodeRows],
    encRegReg_in_subrow _ _ _ _ _ _ rfl, by simp [encode]⟩

theorem shr (x y : Reg) : Statement (.shr x y) := by
  intro strict
  exact ⟨⟨0x8006, 0xF00F, fun w => .shr (fieldX w) (fieldY w)⟩, by simp [opcodeRows],
    encRegReg_in_subrow _ _ _ _ _ _ rfl, by simp [encode]⟩

theorem subn (x y : Reg) : Statement (.subn x y) := by
  intro strict
  exact ⟨⟨0x8007, 0xF00F, fun w => .subn (fieldX w) (fieldY w)⟩, by simp [opcodeRows],
    encRegReg_in_subrow _ _ _ _ _ _ rfl, by simp [encode]⟩

theorem shl (x y : Reg) : Statement (.shl x y) := by
  intro strict
  exact ⟨⟨0x800E, 0xF00F, fun w => .shl (fieldX w) (fieldY w)⟩, by simp [opcodeRows],
    encRegReg_in_subrow _ _ _ _ _ _ rfl, by simp [encode]⟩

theorem sneReg (x y : Reg) : Statement (.sneReg x y) := by
  intro strict
  exact ⟨⟨0x9000, lowNibbleMask strict, fun w => .sneReg (fieldX w) (fieldY w)⟩, by simp [opcodeRows],
    by cases strict <;> [exact encRegReg_in_row _ _ _ _ _ _ rfl; exact encRegReg_in_subrow _ _ _ _ _ _ rfl], by simp [encode]⟩

theorem ldI (nnn : Addr12) : Statement (.ldI nnn) := by
  intro strict
  exact ⟨⟨0xA000, 0xF000, fun w => .ldI (fieldNnn w)⟩, by simp [opcodeRows],
    encAddress_in_row _ _ _ _ rfl, by simp [encode]⟩

theorem jpV0 (nnn : Addr12) : Statement (.jpV0 nnn) := by
  intro strict
  exact ⟨⟨0xB000, 0xF000, fun w => .jpV0 (fieldNnn w)⟩, by simp [opcodeRows],
    encAddress_in_row _ _ _ _ rfl, by simp [encode]⟩

theorem rnd (x : Reg) (kk : Byte) : Statement (.rnd x kk) := by
  intro strict
  exact ⟨⟨0xC000, 0xF000, fun w => .rnd (fieldX w) (fieldKk w)⟩, by simp [opcodeRows],
    encRegImm_in_row _ _ _ _ _ rfl, by simp [encode]⟩

theorem drw (x y : Reg) (n : Nibble) : Statement (.drw x y n) := by
  intro strict
  exact ⟨⟨0xD000, 0xF000, fun w => .drw (fieldX w) (fieldY w) (fieldN w)⟩, by simp [opcodeRows],
    encRegReg_in_row _ _ _ _ _ _ rfl, by simp [encode]⟩

theorem skp (x : Reg) : Statement (.skp x) := by
  intro strict
  exact ⟨⟨0xE09E, 0xF0FF, fun w => .skp (fieldX w)⟩, by simp [opcodeRows],
    encRegImm_in_subrow _ _ _ _ _ rfl, by simp [encode]⟩

theorem sknp (x : Reg) : Statement (.sknp x) := by
  intro strict
  exact ⟨⟨0xE0A1, 0xF0FF, fun w => .sknp (fieldX w)⟩, by simp [opcodeRows],
    encRegImm_in_subrow _ _ _ _ _ rfl, by simp [encode]⟩

theorem ldVxDt (x : Reg) : Statement (.ldVxDt x) := by
  intro strict
  exact ⟨⟨0xF007, 0xF0FF, fun w => .ldVxDt (fieldX w)⟩, by simp [opcodeRows],
    encRegImm_in_subrow _ _ _ _ _ rfl, by simp [encode]⟩

theorem ldVxK (x : Reg) : Statement (.ldVxK x) := by
  intro strict
  exact ⟨⟨0xF00A, 0xF0FF, fun w => .ldVxK (fieldX w)⟩, by simp [opcodeRows],
    encRegImm_in_subrow _ _ _ _ _ rfl, by simp [encode]⟩

theorem ldDtVx (x : Reg) : Statement (.ldDtVx x) := by
  intro strict
  exact ⟨⟨0xF015, 0xF0FF, fun w => .ldDtVx (fieldX w)⟩, by simp [opcodeRows],
    encRegImm_in_subrow _ _ _ _ _ rfl, by simp [encode]⟩

theorem ldStVx (x : Reg) : Statement (.ldStVx x) := by
  intro strict
  exact ⟨⟨0xF018, 0xF0FF, fun w => .ldStVx (fieldX w)⟩, by simp [opcodeRows],
    encRegImm_in_subrow _ _ _ _ _ rfl, by simp [encode]⟩

theorem addI (x : Reg) : Statement (.addI x) := by
  intro strict
  exact ⟨⟨0xF01E, 0xF0FF, fun w => .addI (fieldX w)⟩, by simp [opcodeRows],
    encRegImm_in_subrow _ _ _ _ _ rfl, by simp [encode]⟩

theorem ldF (x : Reg) : Statement (.ldF x) := by
  intro strict
  exact ⟨⟨0xF029, 0xF0FF, fun w => .ldF (fieldX w)⟩, by simp [opcodeRows],
    encRegImm_in_subrow _ _ _ _ _ rfl, by simp [encode]⟩

theorem ldB (x : Reg) : Statement (.ldB x) := by
  intro strict
  exact ⟨⟨0xF033, 0xF0FF, fun w => .ldB (fieldX w)⟩, by simp [opcodeRows],
    encRegImm_in_subrow _ _ _ _ _ rfl, by simp [encode]⟩

theorem ldMemVx (x : Reg) : Statement (.ldMemVx x) := by
  intro strict
  exact ⟨⟨0xF055, 0xF0FF, fun w => .ldMemVx (fieldX w)⟩, by simp [opcodeRows],
    encRegImm_in_subrow _ _ _ _ _ rfl, by simp [encode]⟩

theorem ldVxMem (x : Reg) : Statement (.ldVxMem x) := by
  intro strict
  exact ⟨⟨0xF065, 0xF0FF, fun w => .ldVxMem (fieldX w)⟩, by simp [opcodeRows],
    encRegImm_in_subrow _ _ _ _ _ rfl, by simp [encode]⟩

end Sys2Proof.Laws.EncodingRow
end

