-- ==== Sys2Proof/Laws/Ports.lean ====
section
/-! SUPPORT. What a host write and a host operation can do, once (60_exceptions.md R306, R318, R319). -/

namespace Sys2Proof.Machine

@[simp] theorem hostWrite_unfaulted (s : State) (write : Except PortRefusal State) (h : s.fs = none) :
    hostWrite s write = write := by simp [hostWrite, h]

@[simp] theorem hostWrite_faulted (s : State) (write : Except PortRefusal State) (f : Fault) (h : s.fs = some f) :
    hostWrite s write = .error .coreFaulted := by simp [hostWrite, h]

/-- A key write that is accepted: the core is unfaulted, the index in its domain, and only K has changed (R312). -/
theorem setKey_ok (k : Nat) (b : Bool) (s t : State) (h : setKey k b s = .ok t) :
    s.fs = none ∧ ∃ hk : k < 16, t = { s with keys := s.keys.set k b } := by
  unfold setKey hostWrite at h
  split at h
  · split at h
    · simp only [Except.ok.injEq] at h
      exact ⟨by assumption, by assumption, h.symm⟩
    · cases h
  · cases h

/-- A load that is accepted: the core is unfaulted, the image fits, and only memory has changed (R352). -/
theorem loadImage_ok (image : List Byte) (s t : State) (h : loadImage image s = .ok t) :
    s.fs = none ∧ image.length ≤ maxImage ∧
      t = { s with mem := copyImage s.cfg.font s.mem progBase.toNat image } := by
  unfold loadImage hostWrite at h
  split at h
  · split at h
    · simp only [Except.ok.injEq] at h
      exact ⟨by assumption, by assumption, h.symm⟩
    · cases h
  · cases h

/-- Everything a host operation can do to an instance: nothing, or the effect of the one operation it is (R318). -/
theorem hostOp_cases (op : HostOp) (n : Instance) :
    (hostOp op n).1 = n ∨
    (∃ image t, op = .load image ∧ n.phase = .constructed ∧ loadImage image n.core = .ok t ∧
      (hostOp op n).1 = ⟨t, .loaded⟩) ∨
    (op = .step ∧ n.phase = .loaded ∧ (hostOp op n).1 = ⟨(stepPort n.core).1, .loaded⟩) ∨
    (op = .tick ∧ (hostOp op n).1 = ⟨tick n.core, n.phase⟩) ∨
    (∃ k b t, op = .setKey k b ∧ setKey k b n.core = .ok t ∧ (hostOp op n).1 = ⟨t, n.phase⟩) := by
  obtain ⟨s, ph⟩ := n
  cases op with
  | load image =>
    cases ph with
    | loaded => exact .inl rfl
    | constructed =>
      cases h : loadImage image s with
      | ok t => exact .inr (.inl ⟨image, t, rfl, rfl, h, by simp [hostOp, h]⟩)
      | error r => exact .inl (by simp [hostOp, h])
  | step =>
    cases ph with
    | loaded => exact .inr (.inr (.inl ⟨rfl, rfl, rfl⟩))
    | constructed => exact .inl rfl
  | tick => exact .inr (.inr (.inr (.inl ⟨rfl, rfl⟩)))
  | setKey k b =>
    cases h : setKey k b s with
    | ok t => exact .inr (.inr (.inr (.inr ⟨k, b, t, rfl, h, by simp [hostOp, h]⟩)))
    | error r => exact .inl (by simp [hostOp, h])

/-- A step port answers the stepped state, or leaves the state where the step answers none (R317). -/
theorem stepPort_cases (s : State) : step s = .next (stepPort s).1 ∨ (stepPort s).1 = s := by
  unfold stepPort
  cases h : step s <;> simp

end Sys2Proof.Machine
end

