-- ==== Sys2Proof/Tests/Slice0.lean ====
section
/-! SUPPORT. The model's own tests. Words are written out from the patterns of 30_encoding.md R108; expected results
are those of 95_test_vectors.md (the vector's name stands in the test's comment) unless a rule is named. The witnesses
at the end meet the hypotheses of the statements. -/

-- Kernel evaluations run one after another: in parallel they can run the sandbox out of threads.
set_option Elab.async false

namespace Sys2Proof.Tests

open Sys2Proof.Machine Sys2Proof.Cert

/-! ## Well-formedness (R109) -/

theorem test_wf_sys_0E0_refused : (Instr.sys 0x0E0).wellFormed = false := by decide
theorem test_wf_sys_0EE_refused : (Instr.sys 0x0EE).wellFormed = false := by decide
theorem test_wf_sys_neighbours : (Instr.sys 0x0E1).wellFormed = true ∧ (Instr.sys 0x0EF).wellFormed = true := by decide

/-! ## Decoding: one word of every row, from its pattern in R108 -/

theorem test_decode_cls : dispatch true 0x00E0 = .ok .cls := by decide
theorem test_decode_ret : dispatch true 0x00EE = .ok .ret := by decide
theorem test_decode_sys : dispatch true 0x0123 = .ok (.sys 0x123) := by decide
theorem test_decode_jp : dispatch true 0x1ABC = .ok (.jp 0xABC) := by decide
theorem test_decode_call : dispatch true 0x2210 = .ok (.call 0x210) := by decide
theorem test_decode_seImm : dispatch true 0x3342 = .ok (.seImm 3 0x42) := by decide
theorem test_decode_sneImm : dispatch true 0x4E51 = .ok (.sneImm 14 0x51) := by decide
theorem test_decode_seReg : dispatch true 0x5120 = .ok (.seReg 1 2) := by decide
theorem test_decode_ldImm : dispatch true 0x6A7B = .ok (.ldImm 10 0x7B) := by decide
theorem test_decode_addImm : dispatch true 0x7F01 = .ok (.addImm 15 0x01) := by decide
theorem test_decode_ldReg : dispatch true 0x8AB0 = .ok (.ldReg 10 11) := by decide
theorem test_decode_or : dispatch true 0x8AB1 = .ok (.orReg 10 11) := by decide
theorem test_decode_and : dispatch true 0x8AB2 = .ok (.andReg 10 11) := by decide
theorem test_decode_xor : dispatch true 0x8AB3 = .ok (.xorReg 10 11) := by decide
theorem test_decode_add : dispatch true 0x8AB4 = .ok (.addReg 10 11) := by decide
theorem test_decode_sub : dispatch true 0x8AB5 = .ok (.subReg 10 11) := by decide
theorem test_decode_shr : dispatch true 0x8AB6 = .ok (.shr 10 11) := by decide
theorem test_decode_subn : dispatch true 0x8AB7 = .ok (.subn 10 11) := by decide
theorem test_decode_shl : dispatch true 0x8ABE = .ok (.shl 10 11) := by decide
theorem test_decode_sneReg : dispatch true 0x9120 = .ok (.sneReg 1 2) := by decide
theorem test_decode_ldI : dispatch true 0xA300 = .ok (.ldI 0x300) := by decide
theorem test_decode_jpV0 : dispatch true 0xB5F1 = .ok (.jpV0 0x5F1) := by decide
theorem test_decode_rnd : dispatch true 0xC30F = .ok (.rnd 3 0x0F) := by decide
theorem test_decode_drw : dispatch true 0xD125 = .ok (.drw 1 2 5) := by decide
theorem test_decode_skp : dispatch true 0xE49E = .ok (.skp 4) := by decide
theorem test_decode_sknp : dispatch true 0xE4A1 = .ok (.sknp 4) := by decide
theorem test_decode_ldVxDt : dispatch true 0xF207 = .ok (.ldVxDt 2) := by decide
theorem test_decode_ldVxK : dispatch true 0xF30A = .ok (.ldVxK 3) := by decide
theorem test_decode_ldDtVx : dispatch true 0xF215 = .ok (.ldDtVx 2) := by decide
theorem test_decode_ldStVx : dispatch true 0xF218 = .ok (.ldStVx 2) := by decide
theorem test_decode_addI : dispatch true 0xF21E = .ok (.addI 2) := by decide
theorem test_decode_ldF : dispatch true 0xF229 = .ok (.ldF 2) := by decide
theorem test_decode_ldB : dispatch true 0xF133 = .ok (.ldB 1) := by decide
theorem test_decode_ldMemVx : dispatch true 0xF355 = .ok (.ldMemVx 3) := by decide
theorem test_decode_ldVxMem : dispatch true 0xFE65 = .ok (.ldVxMem 14) := by decide
/-- DEC4-DEC7, DEC10, DEC11, DEC13. -/
theorem test_decode_rejects : [0x8008, 0x800F, 0xE000, 0xE09F, 0xFFFF, 0x5123, 0x9121].all
    (fun w => dispatch true w == .error (.unimplemented w)) = true := by decide
/-- DEC12. -/
theorem test_decode_lenient_low_nibble : dispatch false 0x5123 = .ok (.seReg 1 2) := by decide
/-- W1: the nibbles and the three argument forms of `D1 25`. -/
theorem test_fields : nibbles 0xD125 = (0xD, 0x1, 0x2, 0x5) ∧ fieldNnn 0xD125 = 0x125 ∧
    argsOf .registerImmediate 0xD125 = .registerImmediate 1 0x25 ∧
    argsOf .registerRegisterNibble 0xD125 = .registerRegisterNibble 1 2 5 := by decide

/-! ## One step -/

/-- Reset with some registers set. -/
def base (regs : List (Reg × Byte)) : State := regs.foldl (fun s p => s.setV p.1 p.2) State.reset

/-- Put bytes into memory from an address on. -/
def poke (a : Nat) (bytes : List Byte) (s : State) : State := { s with mem := copyImage s.cfg.font s.mem a bytes }

/-- Set one pixel. -/
def lit (r : Fin 32) (c : Fin 64) (s : State) : State := { s with fb := setPixel s.fb r c true }

/-- Press some keys. -/
def press (ks : List (Fin 16)) (s : State) : State := { s with keys := ks.foldl (fun (v : Vector Bool 16) (k : Fin 16) => v.set k.val true k.isLt) s.keys }

/-- Some things of the state after one step on a word placed at `pc`; `none` unless the step answers a state. -/
def after {α : Type} (s : State) (w : Nat) (f : State → α) : Option α :=
  match step (s.withFetchWord 16 w) with
  | .next t => some (f t)
  | _ => none

/-- DEC1. -/
theorem test_sys_top : after { State.reset with pc := 0xFFE } 0x0000 (fun t => (t.pc, t.fs)) = some (0x1000, none) := by
  decide +kernel
/-- DEC11. -/
theorem test_strict_fault : after (base [(1, 7), (2, 7)]) 0x5123 (fun t => (t.pc, t.fs)) =
    some (0x200, some (.unimplementedInstruction 0x200 0x5123)) := by decide +kernel
/-- DEC2. -/
theorem test_fetch_past_end : (stepPort { State.reset with pc := 0x1000 }).2 =
    .fault (.memoryOutOfRange 0x1000 0x1000) := by decide +kernel
/-- DEC3. -/
theorem test_fetch_half_past_end : (stepPort { State.reset with pc := 0xFFF }).2 =
    .fault (.memoryOutOfRange 0xFFF 0x1000) := by decide +kernel
/-- CF2. -/
theorem test_call : after { State.reset with pc := 0x204 } 0x2210 (fun t => (t.stack, t.pc)) =
    some ([0x206], 0x210) := by decide +kernel
/-- CF6. -/
theorem test_call_full : after { State.reset with stack := List.replicate 16 0x300 } 0x2200
    (fun t => (t.stack.length, t.fs)) = some (16, some (.stackOverflow 0x200)) := by decide +kernel
/-- CF3. -/
theorem test_ret : after { State.reset with pc := 0x210, stack := [0x206] } 0x00EE (fun t => (t.stack, t.pc)) =
    some ([], 0x206) := by decide +kernel
/-- CF4. -/
theorem test_ret_empty : after State.reset 0x00EE (fun t => (t.pc, t.fs)) =
    some (0x200, some (.stackUnderflow 0x200)) := by decide +kernel
/-- CF5. -/
theorem test_jp : after { State.reset with pc := 0x20A } 0x120C (fun t => t.pc) = some 0x20C := by decide +kernel
/-- CF18. -/
theorem test_jpV0 : after (base [(0, 0xFF)]) 0xBFFF (fun t => t.pc) = some 0x10FE := by decide +kernel
/-- CF19. -/
theorem test_jpV0_register : after (base [(5, 4)]) 0xB300 (fun t => t.pc) = some 0x300 := by decide +kernel
/-- CF8, CF9. -/
theorem test_seImm : after (base [(3, 0x42)]) 0x3342 (fun t => t.pc) = some 0x204 ∧
    after (base [(3, 0x41)]) 0x3342 (fun t => t.pc) = some 0x202 := by decide +kernel
/-- CF10, CF11. -/
theorem test_sneImm : after (base [(3, 0x42)]) 0x4342 (fun t => t.pc) = some 0x202 ∧
    after (base [(3, 0x41)]) 0x4342 (fun t => t.pc) = some 0x204 := by decide +kernel
/-- CF12, CF13. -/
theorem test_seReg : after (base [(1, 7), (2, 7)]) 0x5120 (fun t => t.pc) = some 0x204 ∧
    after (base [(1, 7), (2, 8)]) 0x5120 (fun t => t.pc) = some 0x202 := by decide +kernel
/-- CF14, CF15. -/
theorem test_sneReg : after (base [(1, 7), (2, 8)]) 0x9120 (fun t => t.pc) = some 0x204 ∧
    after (base [(1, 7), (2, 7)]) 0x9120 (fun t => t.pc) = some 0x202 := by decide +kernel
/-- ALU1. -/
theorem test_ldImm : after State.reset 0x6A7B (fun t => (t.getV 10, t.pc)) = some (0x7B, 0x202) := by decide +kernel
/-- ALU2. -/
theorem test_addImm : after (base [(0, 0xFF), (15, 0x55)]) 0x7001 (fun t => (t.getV 0, t.getV 15)) =
    some (0, 0x55) := by decide +kernel
/-- ALU4. -/
theorem test_ldReg : after (base [(1, 0x33)]) 0x8010 (fun t => t.getV 0) = some 0x33 := by decide +kernel
/-- ALU5. -/
theorem test_or : after (base [(0, 0xF0), (1, 0x0F), (15, 0x55)]) 0x8011 (fun t => (t.getV 0, t.getV 15)) =
    some (0xFF, 0x55) := by decide +kernel
/-- ALU6. -/
theorem test_and : after (base [(0, 0xF0), (1, 0x0F), (15, 0x55)]) 0x8012 (fun t => (t.getV 0, t.getV 15)) =
    some (0, 0x55) := by decide +kernel
/-- ALU7. -/
theorem test_xor : after (base [(0, 0xFF), (1, 0x0F), (15, 0x55)]) 0x8013 (fun t => (t.getV 0, t.getV 15)) =
    some (0xF0, 0x55) := by decide +kernel
/-- W2. -/
theorem test_add_carry : after (base [(0, 0xFF), (1, 1)]) 0x8014 (fun t => (t.getV 0, t.getV 15, t.pc)) =
    some (0, 1, 0x202) := by decide +kernel
/-- ALU10: the flag overwrites the sum. -/
theorem test_add_into_VF : after (base [(15, 0x10), (1, 0x20)]) 0x8F14 (fun t => t.getV 15) = some 0 := by
  decide +kernel
/-- W3. -/
theorem test_sub_borrow : after (base [(0, 1), (1, 2)]) 0x8015 (fun t => (t.getV 0, t.getV 15)) = some (0xFF, 0) := by
  decide +kernel
/-- ALU12. -/
theorem test_sub_equal : after (base [(0, 5), (1, 5)]) 0x8015 (fun t => (t.getV 0, t.getV 15)) = some (0, 1) := by
  decide +kernel
/-- ALU15, ALU18. -/
theorem test_shr : after (base [(1, 5)]) 0x8016 (fun t => (t.getV 0, t.getV 1, t.getV 15)) = some (2, 5, 1) ∧
    after (base [(15, 3)]) 0x80F6 (fun t => (t.getV 0, t.getV 15)) = some (1, 1) := by decide +kernel
/-- ALU16. -/
theorem test_shr_compat : after (withCompat false true (base [(0, 4), (1, 5)])) 0x8016
    (fun t => (t.getV 0, t.getV 15)) = some (2, 0) := by decide +kernel
/-- ALU19. -/
theorem test_subn_borrow : after (base [(0, 2), (1, 1)]) 0x8017 (fun t => (t.getV 0, t.getV 15)) =
    some (0xFF, 1) := by decide +kernel
/-- ALU21. -/
theorem test_subn_equal : after (base [(0, 9), (1, 9)]) 0x8017 (fun t => (t.getV 0, t.getV 15)) = some (0, 0) := by
  decide +kernel
/-- ALU22. -/
theorem test_shl : after (base [(1, 0x40)]) 0x801E (fun t => (t.getV 0, t.getV 15)) = some (0x80, 0) := by
  decide +kernel
/-- ALU23. -/
theorem test_shl_compat : after (withCompat false true (base [(2, 0x81)])) 0x822E (fun t => (t.getV 2, t.getV 15)) =
    some (2, 1) := by decide +kernel
/-- ALU26, ALU27, each on its draw. -/
theorem test_rnd : (rndWith 0xA7 3 0x0F State.reset).getV 3 = 7 ∧ (rndWith 0xFF 3 0 State.reset).getV 3 = 0 ∧
    (rndWith 0xFF 3 0 State.reset).draws = 1 := by decide +kernel
/-- R174, R316: a step on `C3FF` takes one draw and advances. -/
theorem test_rnd_step : after State.reset 0xC3FF (fun t => (t.draws, t.pc, t.fs)) = some (1, 0x202, none) := by
  decide +kernel
/-- MEM1. -/
theorem test_ldI : after State.reset 0xA300 (fun t => t.i) = some 0x300 := by decide +kernel
/-- MEM3. -/
theorem test_addI_wraps : after { base [(0, 1), (15, 0x55)] with i := 0xFFFF } 0xF01E (fun t => (t.i, t.getV 15)) =
    some (0, 0x55) := by decide +kernel
/-- MEM4. -/
theorem test_addI_beyond : after { base [(0, 1)] with i := 0x0FFF } 0xF01E (fun t => (t.i, t.fs)) =
    some (0x1000, none) := by decide +kernel
/-- MEM6, MEM8. -/
theorem test_ldF : after (base [(0, 15)]) 0xF029 (fun t => t.i) = some 0x4B ∧
    after (base [(0, 0xFF)]) 0xF029 (fun t => t.i) = some 0x4FB := by decide +kernel
/-- MEM10. -/
theorem test_ldB : after { base [(1, 255)] with i := 0x300 } 0xF133
    (fun t => (t.byteAt 0x300, t.byteAt 0x301, t.byteAt 0x302, t.i)) = some (2, 5, 5, 0x300) := by decide +kernel
/-- MEM13. -/
theorem test_ldB_top : after { base [(1, 7)] with i := 0xFFE } 0xF133 (fun t => (t.byteAt 0xFFE, t.fs)) =
    some (0, some (.memoryOutOfRange 0x200 0x1000)) := by decide +kernel
/-- MEM15. -/
theorem test_ldMemVx : after { base [(0, 1), (1, 2), (2, 3)] with i := 0xFFD } 0xF255
    (fun t => (t.byteAt 0xFFD, t.byteAt 0xFFE, t.byteAt 0xFFF, t.i)) = some (1, 2, 3, 0x1000) := by decide +kernel
/-- MEM17. -/
theorem test_ldMemVx_outside : after { State.reset with i := 0x1005 } 0xF055 (fun t => t.fs) =
    some (some (.memoryOutOfRange 0x200 0x1005)) := by decide +kernel
/-- MEM18. -/
theorem test_ldVxMem : after (poke 0x30F [0xAB] { base [(3, 9)] with i := 0x300 }) 0xFF65
    (fun t => (t.getV 3, t.getV 14, t.getV 15, t.i)) = some (0, 0, 0xAB, 0x310) := by decide +kernel
/-- MEM19. -/
theorem test_ldVxMem_compat : after (withCompat true false (poke 0x300 [1, 2, 3, 4] { State.reset with i := 0x300 }))
    0xF365 (fun t => (t.getV 0, t.getV 3, t.getV 4, t.i)) = some (1, 4, 0, 0x300) := by decide +kernel
/-- DRW2. -/
theorem test_cls : after (lit 31 63 (base [(15, 0x55)])) 0x00E0 (fun t => (pixel t.fb 31 63, t.getV 15)) =
    some (false, 0x55) := by decide +kernel
/-- DRW5: the starting coordinate and the bits wrap, and the most significant bit is the leftmost column. -/
theorem test_drw_wrap : after (poke 0x300 [0x81] { base [(0, 70), (1, 33)] with i := 0x300 }) 0xD011
    (fun t => (pixel t.fb 1 6, pixel t.fb 1 7, pixel t.fb 1 13, t.getV 15)) = some (true, false, true, 0) := by
  decide +kernel
/-- W4's collision on one pixel, at the corner where both axes wrap. -/
theorem test_drw_collision : after (lit 0 3 (poke 0x300 [0xFF, 0xFF, 0xFF] { base [(1, 60), (2, 30)] with i := 0x300 }))
    0xD123 (fun t => (pixel t.fb 0 3, pixel t.fb 31 63, t.getV 15)) = some (false, true, 1) := by decide +kernel
/-- KEY1, KEY2. -/
theorem test_skp : after (press [3] { base [(4, 3)] with pc := 0x220 }) 0xE49E (fun t => t.pc) = some 0x224 ∧
    after { base [(4, 3)] with pc := 0x220 } 0xE49E (fun t => t.pc) = some 0x222 := by decide +kernel
/-- KEY5. -/
theorem test_skp_outside : after (base [(4, 0x10)]) 0xE49E (fun t => t.fs) =
    some (some (.keyIndexOutOfRange 0x200 0x10)) := by decide +kernel
/-- KEY3, KEY4. -/
theorem test_sknp : after (press [3] { base [(4, 3)] with pc := 0x220 }) 0xE4A1 (fun t => t.pc) = some 0x222 ∧
    after { base [(4, 3)] with pc := 0x220 } 0xE4A1 (fun t => t.pc) = some 0x224 := by decide +kernel
/-- KEY6. -/
theorem test_sknp_outside : after (base [(4, 0xFF)]) 0xE4A1 (fun t => t.fs) =
    some (some (.keyIndexOutOfRange 0x200 0xFF)) := by decide +kernel
/-- KEY7. -/
theorem test_ldVxDt : after { State.reset with dt := 0x3C } 0xF007 (fun t => t.getV 0) = some 0x3C := by decide +kernel
/-- KEY8. -/
theorem test_ldDtVx : after (base [(0, 3)]) 0xF015 (fun t => (t.dt, t.st)) = some (3, 0) := by decide +kernel
/-- KEY9. -/
theorem test_ldStVx : after (base [(1, 0x10)]) 0xF118 (fun t => (t.st, t.dt)) = some (0x10, 0) := by decide +kernel
/-- KEY11. -/
theorem test_ldVxK_press : after (press [5, 3] State.reset) 0xF30A (fun t => (t.getV 3, t.kw, t.pc)) =
    some (3, .waitingForRelease 3, 0x200) := by decide +kernel
/-- P5, call 7. -/
theorem test_ldVxK_release : after { base [(3, 3)] with kw := .waitingForRelease 3 } 0xF30A
    (fun t => (t.getV 3, t.kw, t.pc)) = some (3, .idle, 0x202) := by decide +kernel

/-! ## The ports -/

/-- W7. -/
theorem test_tick : (tick { State.reset with dt := 0, st := 2 }).dt = 0 ∧
    (tick { State.reset with dt := 0xFF, st := 2 }).dt = 0xFE ∧ (tick { State.reset with st := 2 }).st = 1 := by
  decide +kernel
/-- KEY12. -/
theorem test_tick_faulted : (tick { State.reset with dt := 5, fs := some (.stackUnderflow 0x200) }).dt = 5 := by
  decide +kernel
/-- KEY13. -/
theorem test_setKey_16 : hostOp (.setKey 16 true) (Instance.construct Config.default) =
    (Instance.construct Config.default, .refused (.keyOutOfDomain 16)) := by decide +kernel
/-- R306: a faulted core's keys cannot be written (log 9). -/
theorem test_setKey_faulted : (hostOp (.setKey 3 true) ⟨{ State.reset with fs := some (.stackUnderflow 0x200) },
    .loaded⟩).2 = .refused .coreFaulted := by decide +kernel
/-- R71, R76: the first and the last glyph row, and the byte after the font. -/
theorem test_reset_memory : State.reset.byteAt 0 = 0xF0 ∧ State.reset.byteAt 0x4F = 0x80 ∧
    State.reset.byteAt 0x50 = 0 := by decide +kernel
/-- R106: the decoder port at an odd address, and past the end. -/
theorem test_decoder_port : nibblesPort (poke 0x301 [0xD1, 0x25] State.reset) 0x301 = some (0xD, 1, 2, 5) ∧
    nibblesPort State.reset 0xFFF = none := by decide +kernel
/-- R352, R354: the image's bytes lie at 0x200 on, and a second load is refused. -/
theorem test_load : (runOps [.load [0x12, 0x34], .load [0xFF]] (Instance.construct Config.default)).core.mem =
    [(0x200, 0x12), (0x201, 0x34)] := by decide +kernel

/-! ## The host's two questions -/

theorem test_decodeTableWord : decodeTableWord 16 0xD125 = some (.drw 1 2 5) ∧ decodeTableWord 16 0x8008 = none := by
  decide
theorem test_withFetchWord : fetch (State.reset.withFetchWord 16 0xD125) = .ok 0xD125 := by decide +kernel

/-! ## Witnesses: concrete states and operands that meet the hypotheses of the statements -/

/-- The state an outcome answers, if it answers one. -/
def stateOf (o : Result) : Option State :=
  match o with
  | .next t => some t
  | _ => none

theorem next_stateOf (o : Result) (s : State) (h : (stateOf o).isSome = true) : o = .next ((stateOf o).getD s) := by
  cases o <;> first | rfl | simp [stateOf] at h

/-- The state after an instruction (the state before it, where it answers none). -/
def out (i : Instr) (s : State) : State := (stateOf (exec i s)).getD s

theorem exec_out (i : Instr) (s : State) (h : (stateOf (exec i s)).isSome = true) : exec i s = .next (out i s) :=
  next_stateOf _ _ h

/-- The state after a step. -/
def stepped (s : State) : State := (stateOf (step s)).getD s

theorem step_stepped (s : State) (h : (stateOf (step s)).isSome = true) : step s = .next (stepped s) :=
  next_stateOf _ _ h

theorem witness_DecodeOfEncodeIsTheInstruction : (Instr.sys 0xFFF).wellFormed = true ∧
    (Instr.drw 15 0 15).wellFormed = true := by decide

theorem witness_EncodeOfDecodeIsTheWord : dispatch true 0x8AB6 = .ok (.shr 10 11) ∧
    dispatch false 0x5FEF = .ok (.seReg 15 14) := by decide

/-- R110's five clauses, each at a first and a last value of its range, and words beside them that are none of it. -/
theorem witness_UnimplementedWordsAreThoseListed :
    (∀ w ∈ ([0x5001, 0x5FFF, 0x8008, 0x8FFF, 0x9001, 0x9FFF, 0xE000, 0xE09F, 0xFFFF] : List Word),
      illegalWord true w) ∧
    (∀ w ∈ ([0x4FFF, 0x5FF0, 0x8007, 0x800E, 0x9000, 0xEF9E, 0xE0A1, 0xF007, 0xFF65] : List Word),
      ¬ illegalWord true w) ∧ ¬ illegalWord false 0x5001 := by
  simp [illegalWord]

/-- A word of each form of the map, at the ends of its fields. -/
theorem witness_EveryRowDecodesByItsPattern :
    (0x0FFF : Word).toNat = (0xFFF : Addr12).toNat ∧ (0xFFF : Addr12) ≠ 0x0E0 ∧ (0xFFF : Addr12) ≠ 0x0EE ∧
    (0xBFFF : Word).toNat = 0xB000 + (0xFFF : Addr12).toNat ∧
    (0xCF0F : Word).toNat = 0xC000 + (15 : Reg).val * 0x100 + (0x0F : Byte).toNat ∧
    (0x8AFE : Word).toNat = 0x800E + (10 : Reg).val * 0x100 + (15 : Reg).val * 0x10 ∧
    (0xDAF5 : Word).toNat = 0xD000 + (10 : Reg).val * 0x100 + (15 : Reg).val * 0x10 + (5 : Nibble).toNat ∧
    (0xFF65 : Word).toNat = 0xF065 + (15 : Reg).val * 0x100 := by decide

theorem witness_LowNibbleFollowsStrictParameter : (1 : Nibble) ≠ 0 ∧ (15 : Nibble) ≠ 0 := by decide

theorem witness_ZeroFamilyPrecedenceAndNoOtherOverlap : (0x0DF : Addr12) ≠ 0x0E0 ∧ (0x0EF : Addr12) ≠ 0x0EE ∧
    (0x1000 : Word).toNat / 0x1000 ≠ 0 ∧ (0xFFFF : Word).toNat / 0x1000 ≠ 0 := by decide

theorem witness_FetchIsBigEndianAndChecked : { State.reset with pc := 0xFFE }.pc.toNat ≤ 0xFFE ∧
    { State.reset with pc := 0xFFF }.pc.toNat = 0xFFF ∧ { State.reset with pc := 0x1000 }.pc.toNat ≥ 0x1000 := by
  decide

/-- `8014` at the first program address. -/
def addAt200 : State := poke 0x200 [0x80, 0x14] (base [(0, 0xFF), (1, 1)])

theorem witness_StepRunsTheDecodedInstruction : addAt200.fs = none ∧ fetch addAt200 = .ok 0x8014 ∧
    dispatch addAt200.cfg.strictLowNibble 0x8014 = .ok (.addReg 0 1) := by decide +kernel

theorem witness_StepRunsTheEncodedInstructionAtPc : addAt200.pc.toNat ≤ 0xFFE ∧
    (Instr.addReg 0 1).wellFormed = true ∧
    encodeBytes (.addReg 0 1) = [addAt200.byteAt addAt200.pc.toNat, addAt200.byteAt (addAt200.pc.toNat + 1)] := by
  decide +kernel

/-- Unfaulted states whose next step raises each fault, and one whose step raises none. -/
theorem witness_StepFaultsExactlyByTheFaultTable :
    State.reset.fs = none ∧ stepFault addAt200 = none ∧
    stepFault (poke 0x200 [0x80, 0x08] State.reset) = some (.unimplementedInstruction 0x200 0x8008) ∧
    stepFault (poke 0x200 [0x00, 0xEE] State.reset) = some (.stackUnderflow 0x200) ∧
    stepFault { State.reset with pc := 0xFFF } = some (.memoryOutOfRange 0xFFF 0x1000) ∧
    stepFault (poke 0x200 [0xE0, 0x9E] (base [(0, 16)])) = some (.keyIndexOutOfRange 0x200 16) := by decide +kernel

theorem witness_InstructionFaultsExactlyByItsRule : State.reset.fs = none ∧
    instrFault { State.reset with stack := List.replicate 16 0x202 } (.call 0x200) = some (.stackOverflow 0x200) ∧
    instrFault { State.reset with i := 0xFFD } (.ldB 0) = none ∧
    instrFault { State.reset with i := 0xFFE } (.ldB 0) = some (.memoryOutOfRange 0x200 0x1000) := by decide +kernel

theorem witness_FaultChangesOnlyTheFaultStatus :
    exec .ret State.reset = .next (out .ret State.reset) ∧ (out .ret State.reset).fs ≠ State.reset.fs ∧
    step { State.reset with pc := 0xFFF } = .next (stepped { State.reset with pc := 0xFFF }) ∧
    (stepped { State.reset with pc := 0xFFF }).fs ≠ none :=
  ⟨exec_out _ _ (by decide +kernel), by decide +kernel, step_stepped _ (by decide +kernel), by decide +kernel⟩

theorem witness_FaultIsSticky :
    { State.reset with fs := some (.stackUnderflow 0x200) }.fs = some (.stackUnderflow 0x200) := by decide

theorem witness_StepPortReportsTheFaultStatus : addAt200.fs = none := by decide +kernel

/-- Room under a bound, room without one, and none. -/
theorem witness_CallPushesReturnAddress :
    (∀ d, State.reset.cfg.stackDepth = some d → (List.replicate 15 (0x202 : Word)).length < d) ∧
    (∀ d, { Config.default with stackDepth := none }.stackDepth = some d → 17 < d) ∧
    State.reset.cfg.stackDepth = some (List.replicate 16 (0x202 : Word)).length := by
  refine ⟨?_, ?_, by decide⟩
  · intro d h
    have : some 16 = some d := h
    simp at this
    simp
    omega
  · intro d h
    cases h

theorem witness_RetPopsReturnAddress : { State.reset with stack := [0x206] }.stack = [0x206] ∧
    State.reset.stack = [] := by decide

theorem witness_CallThenRetReturnsBehindTheCall :
    exec (.call 0x300) State.reset = .next (out (.call 0x300) State.reset) ∧
    (out (.call 0x300) State.reset).fs = none ∧
    ({ out (.call 0x300) State.reset with pc := 0x340 }).stack = (out (.call 0x300) State.reset).stack :=
  ⟨exec_out _ _ (by decide +kernel), by decide +kernel, rfl⟩

theorem witness_flag_destinations : (14 : Reg) ≠ regVF ∧ (0 : Reg) ≠ regVF := by decide

theorem witness_ShiftsMoveTheSelectedSource : 0x05 =
    (if (base [(1, 5)]).cfg.shCompat then (base [(1, 5)]).getV 0 else (base [(1, 5)]).getV 1).toNat ∧
    0x04 = (if (withCompat false true (base [(0, 4)])).cfg.shCompat then (withCompat false true (base [(0, 4)])).getV 0
      else (withCompat false true (base [(0, 4)])).getV 1).toNat := by decide +kernel

theorem witness_OnlyRndConsumesTheRandomPort :
    exec (.rnd 3 0) State.reset = .next (out (.rnd 3 0) State.reset) ∧
    setKey 15 true State.reset = .ok (press [15] State.reset) ∧
    loadImage [0x12] State.reset = .ok (poke 0x200 [0x12] State.reset) :=
  ⟨exec_out _ _ (by decide +kernel), rfl, rfl⟩

theorem witness_OnlyFlagInstructionsWriteVF :
    exec (.ldVxMem 14) State.reset = .next (out (.ldVxMem 14) State.reset) ∧ (14 : Reg) ≠ regVF :=
  ⟨exec_out _ _ (by decide +kernel), by decide⟩

theorem witness_MemoryReadAfterWrite : (0x1000 : Nat) ≥ 0x1000 ∧ 0xFFF < 0x1000 ∧
    Memory.wf State.reset.cfg.font State.reset.mem := ⟨by decide, by decide, wf_nil⟩

theorem witness_BcdDigitsAreStored : Memory.wf State.reset.cfg.font State.reset.mem ∧
    { State.reset with i := 0xFFD }.i.toNat + 2 < 0x1000 ∧ { State.reset with i := 0xFFE }.i.toNat + 2 ≥ 0x1000 :=
  ⟨wf_nil, by decide, by decide⟩

theorem witness_RegistersAreStored : Memory.wf State.reset.cfg.font State.reset.mem ∧
    { State.reset with i := 0xFF0 }.i.toNat + (15 : Reg).val < 0x1000 ∧
    { State.reset with i := 0xFFF }.i.toNat + (0 : Reg).val < 0x1000 ∧
    { State.reset with i := 0xFF1 }.i.toNat + (15 : Reg).val ≥ 0x1000 := ⟨wf_nil, by decide, by decide, by decide⟩

theorem witness_RegistersAreLoaded : { State.reset with i := 0xFF0 }.i.toNat + (15 : Reg).val < 0x1000 ∧
    { State.reset with i := 0xFFF }.i.toNat + (0 : Reg).val < 0x1000 ∧
    { State.reset with i := 0x1000 }.i.toNat + (0 : Reg).val ≥ 0x1000 := by decide

/-- W6's start, with the registers overwritten between the two instructions. -/
def w6Start : State := { base [(0, 1), (1, 2), (2, 3), (3, 4)] with i := 0x300 }
def w6Between : State := { out (.ldMemVx 3) w6Start with v := Vector.replicate 16 0xEE, i := 0x300 }

theorem witness_StoreThenLoadRestoresRegisters : Memory.wf w6Start.cfg.font w6Start.mem ∧
    exec (.ldMemVx 3) w6Start = .next (out (.ldMemVx 3) w6Start) ∧ (out (.ldMemVx 3) w6Start).fs = none ∧
    (∀ a, w6Between.byteAt a = (out (.ldMemVx 3) w6Start).byteAt a) ∧ w6Between.i = w6Start.i ∧
    exec (.ldVxMem 3) w6Between = .next (out (.ldVxMem 3) w6Between) ∧ (out (.ldVxMem 3) w6Between).getV 3 = 4 :=
  ⟨wf_nil, exec_out _ _ (by decide +kernel), by decide +kernel, fun _ => rfl, rfl, exec_out _ _ (by decide +kernel),
    by decide +kernel⟩

theorem witness_OnlyStoresWriteMemory : exec (.ldB 1) w6Start = .next (out (.ldB 1) w6Start) ∧
    (out (.ldB 1) w6Start).byteAt 0x302 ≠ w6Start.byteAt 0x302 := ⟨exec_out _ _ (by decide +kernel), by decide +kernel⟩

theorem witness_FetchSeesTheLastStore : Memory.wf State.reset.cfg.font State.reset.mem ∧
    memWrite State.reset 0x200 0x12 = .ok (poke 0x200 [0x12] State.reset) ∧
    fetch (poke 0x200 [0x12] State.reset) = .ok 0x1200 ∧
    memWrite State.reset 0x201 0x34 = .ok (poke 0x201 [0x34] State.reset) ∧
    fetch (poke 0x201 [0x34] State.reset) = .ok 0x0034 := ⟨wf_nil, rfl, by decide +kernel, rfl, by decide +kernel⟩

/-- Rows in range up to the last byte, no rows at all, a pixel that goes off, and none that does. -/
theorem witness_DrawXorsTheSprite : { State.reset with i := 0xFFE }.i.toNat + (2 : Nibble).toNat - 1 < 0x1000 ∧
    (0 : Nibble) = 0 ∧ ((3 : Nibble) ≠ 0 ∧ { State.reset with i := 0xFFE }.i.toNat + (3 : Nibble).toNat - 1 ≥ 0x1000) ∧
    (pixel (lit 0 0 State.reset).fb 0 0 = true ∧ pixel (out (.drw 0 0 1) (lit 0 0 State.reset)).fb 0 0 = false) ∧
    (∀ r c, pixel State.reset.fb r c = true → pixel (out (.drw 0 0 1) State.reset).fb r c = true) := by
  refine ⟨by decide, rfl, by decide, by decide +kernel, ?_⟩
  intro r c h
  have : pixel State.reset.fb r c = false := pixel_clearFrame r c
  simp [this] at h

/-- The second draw at the same place, with other registers naming the coordinates. -/
def drawnOnce : State := out (.drw 0 1 5) State.reset

theorem witness_DrawTwiceRestoresTheFrame : exec (.drw 0 1 5) State.reset = .next drawnOnce ∧ drawnOnce.fs = none ∧
    drawnOnce.i = State.reset.i ∧ drawnOnce.getV 2 = State.reset.getV 0 ∧ drawnOnce.getV 3 = State.reset.getV 1 ∧
    (∀ a, drawnOnce.byteAt a = State.reset.byteAt a) ∧
    exec (.drw 2 3 5) drawnOnce = .next (out (.drw 2 3 5) drawnOnce) :=
  ⟨exec_out _ _ (by decide +kernel), by decide +kernel, by decide +kernel, by decide +kernel, by decide +kernel,
    fun _ => rfl, exec_out _ _ (by decide +kernel)⟩

theorem witness_KeyTestsSkip : ((base [(4, 15)]).getV 4).toNat = (15 : Fin 16).val ∧
    ((base [(4, 16)]).getV 4).toNat ≥ 16 := by decide +kernel

theorem witness_KeyWaitLatchesThenCompletes :
    (State.reset.kw = .idle ∧ ∀ k : Fin 16, State.reset.keys[k] = false) ∧
    ((press [15] State.reset).keys[(15 : Fin 16)] = true ∧
      ∀ j : Fin 16, j < 15 → (press [15] State.reset).keys[j] = false) ∧
    (∃ k : Fin 16, (press [0] State.reset).keys[k] = true) := by decide +kernel

/-- A press of 3, then 3 still held, then only 1 held. -/
def pressed : State := out (.ldVxK 3) (press [3] State.reset)
def heldKeys : List (Vector Bool 16) := [(press [3] State.reset).keys, (press [1] State.reset).keys]
def waited : State := (stateOf (waitThrough 3 heldKeys pressed)).getD pressed
def released : State := { waited with keys := Vector.replicate 16 false }

theorem witness_KeyWaitCompletesAfterPressAndRelease : exec (.ldVxK 3) (press [3] State.reset) = .next pressed ∧
    (∀ keys ∈ heldKeys, ∃ j : Fin 16, keys[j] = true) ∧
    waitThrough 3 heldKeys pressed = .next waited ∧ exec (.ldVxK 3) released = .next (out (.ldVxK 3) released) := by
  refine ⟨exec_out _ _ (by decide +kernel), ?_, next_stateOf _ _ (by decide +kernel), exec_out _ _ (by decide +kernel)⟩
  intro keys h
  simp only [heldKeys, List.mem_cons, List.not_mem_nil, or_false] at h
  rcases h with rfl | rfl
  · exact ⟨3, by decide +kernel⟩
  · exact ⟨1, by decide +kernel⟩

theorem witness_TickDecrementsAndSaturates : { State.reset with st := 0xFF }.fs = none ∧
    { State.reset with fs := some (.stackUnderflow 0x200) }.fs ≠ none := by decide

theorem witness_EveryInstructionKeepsItsFrame :
    exec (.ldMemVx 15) w6Start = .next (out (.ldMemVx 15) w6Start) ∧
    (out (.ldMemVx 15) w6Start).fs = w6Start.fs := ⟨exec_out _ _ (by decide +kernel), by decide +kernel⟩

theorem witness_CompatFlagsAffectOnlyFourInstructions :
    exec (.drw 0 0 15) State.reset = .next (out (.drw 0 0 15) State.reset) := exec_out _ _ (by decide +kernel)

theorem witness_SetKeyWritesOneKey : (15 : Nat) < 16 ∧ State.reset.fs = none ∧ (16 : Nat) ≥ 16 := by decide

theorem witness_LoadCopiesTheImage : Memory.wf State.reset.cfg.font State.reset.mem ∧
    State.reset.fs = none ∧
    (List.replicate 3584 (0 : Byte)).length ≤ 3584 ∧ (List.replicate 3585 (0 : Byte)).length > 3584 :=
  ⟨wf_nil, rfl, List.length_replicate.le, List.length_replicate.ge⟩

theorem witness_BootOrderIsChecked :
    hostOp (.setKey 16 true) (Instance.construct Config.default) =
      (Instance.construct Config.default, .refused (.keyOutOfDomain 16)) ∧
    (List.replicate 3584 (0 : Byte)).length ≤ 3584 ∧ State.reset.fs = none :=
  ⟨by decide +kernel, List.length_replicate.le, rfl⟩

theorem witness_DecoderPortReadsFields : 0xFFE + 1 < 0x1000 ∧ 0xFFF + 1 ≥ 0x1000 := by decide

theorem witness_reset_inv : Inv State.reset := by
  refine ⟨wf_nil, ⟨by simp [State.reset, State.construct], ?_⟩, by decide⟩
  simp [State.reset, State.construct]

theorem witness_EveryHostRunKeepsTheInvariant : Inv (Instance.construct Config.default).core := witness_reset_inv

theorem witness_EveryStepKeepsTheInvariant : Inv State.reset ∧ step State.reset = .next (stepped State.reset) :=
  ⟨witness_reset_inv, step_stepped _ (by decide +kernel)⟩

end Sys2Proof.Tests
end

section
/-! SUPPORT. Frames by composition: what each state update keeps, and how the frames of successive updates join. -/

namespace Sys2Proof.Proofs

open Sys2Proof.Machine Sys2Proof.Cert

theorem unchanged_trans {p : Part} {s t u : State} (hst : Unchanged p s t) (htu : Unchanged p t u) :
    Unchanged p s u := by
  cases p <;> exact Eq.trans htu hst

theorem unchanged_refl (p : Part) (s : State) : Unchanged p s s := by
  cases p <;> exact Eq.refl _

/-- The frame of an operation, and that it leaves a canonical memory canonical (R46, R70). The second part is not in
the frame: two lists can hold the same bytes and only one of them be canonical. -/
structure Keeps (written : List Part) (s t : State) : Prop where
  changesOnly : ChangesOnly written s t
  wf : Memory.wf s.cfg.font s.mem → Memory.wf t.cfg.font t.mem

namespace Keeps

variable {written : List Part} {s t u : State}

theorem refl (s : State) : Keeps [] s s := ⟨fun p _ => unchanged_refl p s, id⟩

theorem mono {more : List Part} (h : Keeps written s t) (hsub : written ⊆ more) : Keeps more s t :=
  ⟨fun p hp => h.changesOnly p fun hin => hp (hsub hin), h.wf⟩

theorem trans {more : List Part} (hst : Keeps written s t) (htu : Keeps more t u) :
    Keeps (written ++ more) s u := by
  refine ⟨fun p hp => ?_, htu.wf ∘ hst.wf⟩
  rw [List.mem_append, not_or] at hp
  exact unchanged_trans (hst.changesOnly p hp.1) (htu.changesOnly p hp.2)

/-- One more update, of the single part `p`. For the update of a field of the state other than memory the three
hypotheses are found by unfolding. -/
theorem write (p : Part) (h : Keeps written s t)
    (hp : ∀ q, q ≠ p → Unchanged q t u := by
      intro q hq; cases q <;> simp_all [Unchanged, State.getV, State.byteAt])
    (hmem : u.mem = t.mem := by rfl) (hcfg : u.cfg = t.cfg := by rfl) : Keeps (written ++ [p]) s u :=
  h.trans ⟨fun q hq => hp q (by simpa using hq), fun hwf => by rwa [hmem, hcfg]⟩

theorem setPc (h : Keeps written s t) (a : Word) : Keeps (written ++ [.pc]) s { t with pc := a } :=
  h.write .pc

theorem advance (h : Keeps written s t) : Keeps (written ++ [.pc]) s t.advance := h.setPc _

theorem jump (h : Keeps written s t) (a : Word) : Keeps (written ++ [.pc]) s (t.jump a) := h.setPc a

theorem skipIf (h : Keeps written s t) (c : Bool) : Keeps (written ++ [.pc]) s (t.skipIf c) := by
  cases c
  · exact h.setPc _
  · exact h.setPc _

theorem setI (h : Keeps written s t) (a : Word) : Keeps (written ++ [.i]) s { t with i := a } :=
  h.write .i

theorem setStack (h : Keeps written s t) (l : List Word) : Keeps (written ++ [.stack]) s { t with stack := l } :=
  h.write .stack

theorem setDt (h : Keeps written s t) (b : Byte) : Keeps (written ++ [.dt]) s { t with dt := b } :=
  h.write .dt

theorem setSt (h : Keeps written s t) (b : Byte) : Keeps (written ++ [.st]) s { t with st := b } :=
  h.write .st

theorem setFb (h : Keeps written s t) (fb : Frame) : Keeps (written ++ [.fb]) s { t with fb := fb } :=
  h.write .fb

theorem setKw (h : Keeps written s t) (kw : KeyWait) : Keeps (written ++ [.kw]) s { t with kw := kw } :=
  h.write .kw

theorem setDraws (h : Keeps written s t) (n : Nat) : Keeps (written ++ [.draws]) s { t with draws := n } :=
  h.write .draws

theorem setV (h : Keeps written s t) (x : Reg) (b : Byte) : Keeps (written ++ [.v x]) s (t.setV x b) := by
  refine h.write (.v x) fun q hq => ?_
  cases q
  case v z => exact State.getV_setV_ne t x z b fun hz => hq (congrArg Part.v hz)
  all_goals exact Eq.refl _

/-- The result and the flag (R162). -/
theorem writeResultFlag (h : Keeps written s t) (x : Reg) (r f : Byte) :
    Keeps (written ++ [.v x] ++ [.v regVF]) s (writeResultFlag t x r f) := (h.setV x r).setV regVF f

/-- Bytes copied into memory, all inside the address space (R200). -/
theorem copyBytes (h : Keeps written s t) (a : Nat) (bytes : List Byte) (hin : a + bytes.length ≤ memSize) :
    Keeps (written ++ (List.range bytes.length).map fun k => Part.byte (a + k)) s
      { t with mem := copyImage t.cfg.font t.mem a bytes } := by
  refine h.trans ⟨fun q hq => ?_, fun hwf => wf_copyImage bytes t.mem hwf a hin⟩
  cases q
  case byte b =>
    refine memLookup_copyImage_outside bytes t.mem a b fun ⟨hle, hlt⟩ => hq ?_
    exact List.mem_map.mpr ⟨b - a, List.mem_range.mpr (by omega), congrArg Part.byte (by omega)⟩
  all_goals exact Eq.refl _

/-- Bytes copied into the registers from `V0` on, as many as `V0`..`Vx` (R206). -/
theorem loadRegs (h : Keeps written s t) (x : Reg) (bytes : List Byte) (hlen : bytes.length = x.val + 1) :
    Keeps (written ++ ((List.finRange 16).filter (fun z => z ≤ x)).map Part.v) s (loadRegs t 0 bytes) := by
  refine h.trans ⟨fun q hq => ?_, fun hwf => by simpa using hwf⟩
  cases q
  case v z =>
    have hz : ¬ z.val ≤ x.val := by simpa using hq
    have hout : ¬ (0 ≤ z.val ∧ z.val < 0 + bytes.length) := by omega
    simp only [Unchanged, getV_loadRegs, hout, dite_false]
  all_goals simp [Unchanged]

end Keeps

end Sys2Proof.Proofs
end

section
/-! SUPPORT. Everything an instruction can do, once: it raises its fault, or it keeps its frame and moves `pc` in one
of the ways of 10_state.md R35. -/

namespace Sys2Proof.Proofs

open Sys2Proof.Machine Sys2Proof.Cert

variable {s t : State}

/-- FS was written and nothing else (R303). -/
def Faulted (s t : State) : Prop := ∃ f, t = { s with fs := some f }

theorem faulted_of_raiseFault {f : Fault} (h : raiseFault f s = .next t) : Faulted s t :=
  ⟨f, (Host.Outcome.next.inj h).symm⟩

/-! ## The meanings that may raise a fault or branch -/

theorem execRet_cases (h : execRet s = .next t) :
    Faulted s t ∨ ∃ a rest, s.stack = a :: rest ∧ t = { s with stack := rest }.jump a := by
  cases hstack : s.stack with
  | nil => exact .inl (faulted_of_raiseFault (by simpa [execRet, pop, hstack] using h))
  | cons a rest => exact .inr ⟨a, rest, rfl, by simpa [execRet, pop, hstack] using h.symm⟩

theorem execCall_cases {nnn : Addr12} (h : execCall nnn s = .next t) :
    Faulted s t ∨ stackFull s.cfg.stackDepth s.stack.length = false ∧
      t = { s with stack := (s.pc + 2) :: s.stack }.jump (zextAddr nnn) := by
  cases hfull : stackFull s.cfg.stackDepth s.stack.length with
  | true => exact .inl (faulted_of_raiseFault (by simpa [execCall, push_full _ _ hfull] using h))
  | false => exact .inr ⟨rfl, by simpa [execCall, push_room _ _ hfull] using h.symm⟩

theorem execDrw_cases {x y : Reg} {n : Nibble} (h : execDrw x y n s = .next t) :
    Faulted s t ∨ ∃ rows, t = drawSprite x y rows s := by
  by_cases hin : n.toNat = 0 ∨ s.i.toNat + n.toNat ≤ memSize
  · exact .inr ⟨_, Host.Outcome.next.inj (h.symm.trans (execDrw_inside x y n s hin))⟩
  · exact .inl (faulted_of_raiseFault ((execDrw_outside x y n s hin).symm.trans h))

theorem execLdB_cases {x : Reg} (h : execLdB x s = .next t) :
    Faulted s t ∨ s.i.toNat + 3 ≤ memSize ∧
      t = { s with mem := copyImage s.cfg.font s.mem s.i.toNat (bcdDigits (s.getV x)) }.advance := by
  by_cases hin : s.i.toNat + 3 ≤ memSize
  · exact .inr ⟨hin, Host.Outcome.next.inj (h.symm.trans (execLdB_inside x s hin))⟩
  · exact .inl (faulted_of_raiseFault ((execLdB_outside x s hin).symm.trans h))

theorem execLdMemVx_cases {x : Reg} (h : execLdMemVx x s = .next t) :
    Faulted s t ∨ s.i.toNat + (x.val + 1) ≤ memSize ∧
      t = { s with mem := copyImage s.cfg.font s.mem s.i.toNat (regRange s x), i := indexAfter s x }.advance := by
  by_cases hin : s.i.toNat + (x.val + 1) ≤ memSize
  · exact .inr ⟨hin, Host.Outcome.next.inj (h.symm.trans (execLdMemVx_inside x s hin))⟩
  · exact .inl (faulted_of_raiseFault ((execLdMemVx_outside x s hin).symm.trans h))

theorem execLdVxMem_cases {x : Reg} (h : execLdVxMem x s = .next t) :
    Faulted s t ∨ ∃ bytes : List Byte, bytes.length = x.val + 1 ∧
      t = { loadRegs s 0 bytes with i := indexAfter s x }.advance := by
  by_cases hin : s.i.toNat + (x.val + 1) ≤ memSize
  · exact .inr ⟨_, by simp, Host.Outcome.next.inj (h.symm.trans (execLdVxMem_inside x s hin))⟩
  · exact .inl (faulted_of_raiseFault ((execLdVxMem_outside x s hin).symm.trans h))

theorem execSkp_cases {x : Reg} (h : execSkp x s = .next t) : Faulted s t ∨ ∃ c, t = s.skipIf c := by
  unfold execSkp at h
  split at h
  · exact .inl (faulted_of_raiseFault h)
  · exact .inr ⟨_, (Host.Outcome.next.inj h).symm⟩

theorem execSknp_cases {x : Reg} (h : execSknp x s = .next t) : Faulted s t ∨ ∃ c, t = s.skipIf c := by
  unfold execSknp at h
  split at h
  · exact .inl (faulted_of_raiseFault h)
  · exact .inr ⟨_, (Host.Outcome.next.inj h).symm⟩

/-- LD Vx,K stays, latches the pressed key, or completes (R254-R256). -/
theorem execLdVxK_cases {x : Reg} (h : execLdVxK x s = .next t) :
    t = s ∨ (∃ k, t = { s.setV x (keyByte k) with kw := .waitingForRelease x }) ∨
      t = { s with kw := .idle }.advance := by
  unfold execLdVxK at h
  split at h
  · split at h
    · exact .inr (.inl ⟨_, (Host.Outcome.next.inj h).symm⟩)
    · exact .inl (Host.Outcome.next.inj h).symm
  · split at h
    · exact .inl (Host.Outcome.next.inj h).symm
    · exact .inr (.inr (Host.Outcome.next.inj h).symm)

/-! ## Where `pc` goes -/

/-- The values an instruction can leave in `pc` (R35, R143-R145, R150). -/
inductive NextPc (s : State) : Word → Prop where
  | stay : NextPc s s.pc
  | advance : NextPc s (s.pc + 2)
  | skip : NextPc s (s.pc + 4)
  | jump (nnn : Addr12) : NextPc s (zextAddr nnn)
  | jumpV0 (nnn : Addr12) : NextPc s (zextAddr nnn + zextByte (s.getV 0))
  | retAddr (a : Word) (ha : a ∈ s.stack) : NextPc s a

theorem nextPc_skipIf (s : State) (c : Bool) : NextPc s (s.skipIf c).pc := by
  cases c
  · exact .advance
  · exact .skip

/-! ## All instructions -/

/-- An instruction ran to its end: it kept its frame, and `pc` holds one of its next values. -/
structure Completed (i : Instr) (s t : State) : Prop where
  keeps : Keeps (mayWrite s i) s t
  nextPc : NextPc s t.pc

theorem completed_ldMemVx (x : Reg) (hin : s.i.toNat + (x.val + 1) ≤ memSize) :
    Completed (.ldMemVx x) s
      { s with mem := copyImage s.cfg.font s.mem s.i.toNat (regRange s x), i := indexAfter s x }.advance := by
  rw [← regRange_length s x] at hin
  refine ⟨?_, .advance⟩
  rw [mayWrite, indexAfter, ← regRange_length s x]
  split
  · exact (Keeps.refl s).advance.copyBytes s.i.toNat _ hin
  · exact ((Keeps.refl s).setI (s.i + BitVec.ofNat 16 _)).advance.copyBytes s.i.toNat _ hin

theorem completed_ldVxMem (x : Reg) (bytes : List Byte) (hlen : bytes.length = x.val + 1) :
    Completed (.ldVxMem x) s { loadRegs s 0 bytes with i := indexAfter s x }.advance := by
  have hregs := (Keeps.refl s).loadRegs x bytes hlen
  refine ⟨?_, by simpa using NextPc.advance⟩
  rw [mayWrite, indexAfter]
  split
  · have hi : { loadRegs s 0 bytes with i := s.i } = loadRegs s 0 bytes := by
      rw [← loadRegs_i bytes s 0]
    rw [hi]
    exact hregs.advance.mono (by simp)
  · exact (hregs.setI _).advance.mono (by simp)

theorem completed_ldVxK {x : Reg} (h : execLdVxK x s = .next t) : Completed (.ldVxK x) s t := by
  obtain rfl | ⟨k, rfl⟩ | rfl := execLdVxK_cases h
  · exact ⟨(Keeps.refl t).mono (by simp), .stay⟩
  · exact ⟨(((Keeps.refl s).setV x _).setKw _).mono (by simp [mayWrite]), .stay⟩
  · exact ⟨((Keeps.refl s).setKw _).advance.mono (by simp [mayWrite]), .advance⟩

/-- EVERYTHING AN INSTRUCTION CAN DO: raise its fault, or complete. -/
theorem exec_cases {i : Instr} (h : exec i s = .next t) : Faulted s t ∨ Completed i s t := by
  cases i
  case sys => cases h; exact .inr ⟨(Keeps.refl s).advance, .advance⟩
  case cls => cases h; exact .inr ⟨((Keeps.refl s).setFb _).advance, .advance⟩
  case jp => cases h; exact .inr ⟨(Keeps.refl s).jump _, .jump _⟩
  case jpV0 => cases h; exact .inr ⟨(Keeps.refl s).jump _, .jumpV0 _⟩
  case seImm | sneImm | seReg | sneReg => cases h; exact .inr ⟨(Keeps.refl s).skipIf _, nextPc_skipIf s _⟩
  case ldImm | addImm | ldReg | orReg | andReg | xorReg | ldVxDt =>
    cases h; exact .inr ⟨((Keeps.refl s).setV _ _).advance, .advance⟩
  case addReg | subReg | shr | subn | shl =>
    cases h; exact .inr ⟨((Keeps.refl s).writeResultFlag _ _ _).advance, .advance⟩
  case rnd x kk =>
    cases h; exact .inr ⟨(((Keeps.refl s).setDraws _).setV x _).advance.mono (by simp [mayWrite]), .advance⟩
  case ldI | addI | ldF => cases h; exact .inr ⟨((Keeps.refl s).setI _).advance, .advance⟩
  case ldDtVx => cases h; exact .inr ⟨((Keeps.refl s).setDt _).advance, .advance⟩
  case ldStVx => cases h; exact .inr ⟨((Keeps.refl s).setSt _).advance, .advance⟩
  case ldVxK => exact .inr (completed_ldVxK h)
  case ret =>
    refine (execRet_cases h).imp_right ?_
    rintro ⟨a, rest, hstack, rfl⟩
    exact ⟨((Keeps.refl s).setStack rest).jump a, .retAddr a (by simp [hstack])⟩
  case call nnn =>
    refine (execCall_cases h).imp_right ?_
    rintro ⟨-, rfl⟩
    exact ⟨((Keeps.refl s).setStack _).jump _, .jump nnn⟩
  case drw =>
    refine (execDrw_cases h).imp_right ?_
    rintro ⟨rows, rfl⟩
    exact ⟨(((Keeps.refl s).setFb _).setV regVF _).advance, .advance⟩
  case skp =>
    refine (execSkp_cases h).imp_right ?_
    rintro ⟨c, rfl⟩
    exact ⟨(Keeps.refl s).skipIf c, nextPc_skipIf s c⟩
  case sknp =>
    refine (execSknp_cases h).imp_right ?_
    rintro ⟨c, rfl⟩
    exact ⟨(Keeps.refl s).skipIf c, nextPc_skipIf s c⟩
  case ldB x =>
    refine (execLdB_cases h).imp_right ?_
    rintro ⟨hin, rfl⟩
    exact ⟨(Keeps.refl s).advance.copyBytes s.i.toNat (bcdDigits (s.getV x)) hin, .advance⟩
  case ldMemVx x =>
    refine (execLdMemVx_cases h).imp_right ?_
    rintro ⟨hin, rfl⟩
    exact completed_ldMemVx x hin
  case ldVxMem x =>
    refine (execLdVxMem_cases h).imp_right ?_
    rintro ⟨bytes, hlen, rfl⟩
    exact completed_ldVxMem x bytes hlen

/-! ## The configuration and the stack in the frames -/

theorem cfg_notMem_mayWrite (s : State) (i : Instr) : Part.cfg ∉ mayWrite s i := by
  cases i
  case ldMemVx | ldVxMem => cases hls : s.cfg.lsCompat <;> simp [mayWrite, storedBytes, hls]
  all_goals simp [mayWrite, storedBytes]

theorem stack_notMem_mayWrite (s : State) {i : Instr} (hret : i ≠ .ret) (hcall : ∀ nnn, i ≠ .call nnn) :
    Part.stack ∉ mayWrite s i := by
  cases i
  case ret => exact absurd rfl hret
  case call nnn => exact absurd rfl (hcall nnn)
  case ldMemVx | ldVxMem => cases hls : s.cfg.lsCompat <;> simp [mayWrite, storedBytes, hls]
  all_goals simp [mayWrite, storedBytes]

theorem exec_cfg {i : Instr} (h : exec i s = .next t) : t.cfg = s.cfg := by
  obtain ⟨f, rfl⟩ | hdone := exec_cases h
  · rfl
  · exact hdone.keeps.changesOnly .cfg (cfg_notMem_mayWrite s i)

end Sys2Proof.Proofs
end

section
/-! SUPPORT. The frame of every instruction, and VF as one case of it (10_state.md R31, R39). -/

namespace Sys2Proof.Proofs

open Sys2Proof.Machine Sys2Proof.Cert

variable {s t : State}

/-- An instruction that leaves FS as it was has completed, or a fault already stood there and it changed nothing. -/
theorem changesOnly_of_exec {i : Instr} (h : exec i s = .next t) (hfs : t.fs = s.fs) :
    ChangesOnly (mayWrite s i) s t := by
  obtain ⟨f, rfl⟩ | hdone := exec_cases h
  · have hsame : { s with fs := some f } = s := by rw [show some f = s.fs from hfs]
    rw [hsame]
    exact fun p _ => unchanged_refl p s
  · exact hdone.keeps.changesOnly

/-- A register outside the frame reads the same, fault or not. -/
theorem exec_getV {i : Instr} {z : Reg} (h : exec i s = .next t) (hz : Part.v z ∉ mayWrite s i) :
    t.getV z = s.getV z := by
  obtain ⟨f, rfl⟩ | hdone := exec_cases h
  · rfl
  · exact hdone.keeps.changesOnly (.v z) hz

/-- Settles O51, from the case lemma `exec_cases` over all 35 instructions. -/
theorem everyInstructionKeepsItsFrame : Obligations.EveryInstructionKeepsItsFrame := by
  unfold Obligations.EveryInstructionKeepsItsFrame
  intro i s t h hfs
  exact changesOnly_of_exec h hfs

/-- Settles O32: VF is outside the frame of every instruction the statement speaks of. -/
theorem onlyFlagInstructionsWriteVF : Obligations.OnlyFlagInstructionsWriteVF := by
  unfold Obligations.OnlyFlagInstructionsWriteVF
  intro i s t h hdest
  refine exec_getV h ?_
  cases i
  case addReg | subReg | subn | shr | shl | drw => exact hdest.elim
  case ldMemVx x => cases hc : s.cfg.lsCompat <;> simp [mayWrite, storedBytes, hc]
  case ldVxMem x =>
    have hx : ¬ regVF ≤ x := fun hle => hdest (le_antisymm (Fin.le_last x) hle)
    cases hc : s.cfg.lsCompat <;> simpa [mayWrite, hc] using hx
  case ldImm | addImm | ldReg | orReg | andReg | xorReg | rnd | ldVxDt | ldVxK => simpa [mayWrite] using hdest.symm
  all_goals simp [mayWrite, storedBytes]

end Sys2Proof.Proofs
end

section
/-! SUPPORT. The invariant of reachable states (10_state.md R37, R38; 20_memory.md R70): construction establishes it,
and every instruction, step and host operation keeps it. -/

namespace Sys2Proof.Proofs

open Sys2Proof.Machine Sys2Proof.Cert

variable {s t : State}

/-! ## An instruction -/

theorem exec_wf {i : Instr} (h : exec i s = .next t) (hwf : Memory.wf s.cfg.font s.mem) :
    Memory.wf t.cfg.font t.mem := by
  obtain ⟨f, rfl⟩ | hdone := exec_cases h
  · exact hwf
  · exact hdone.keeps.wf hwf

/-- The stack after an instruction: as it was, one entry shorter, or one longer where there was room (R38, R39). -/
theorem exec_stack {i : Instr} (h : exec i s = .next t) :
    t.stack = s.stack ∨ (∃ a, s.stack = a :: t.stack) ∨
      (stackFull s.cfg.stackDepth s.stack.length = false ∧ t.stack = (s.pc + 2) :: s.stack) := by
  by_cases hret : i = .ret
  · subst hret
    obtain ⟨f, rfl⟩ | ⟨a, rest, hstack, rfl⟩ := execRet_cases h
    · exact .inl rfl
    · exact .inr (.inl ⟨a, hstack⟩)
  by_cases hcall : ∃ nnn, i = .call nnn
  · obtain ⟨nnn, rfl⟩ := hcall
    obtain ⟨f, rfl⟩ | ⟨hroom, rfl⟩ := execCall_cases h
    · exact .inl rfl
    · exact .inr (.inr ⟨hroom, rfl⟩)
  · obtain ⟨f, rfl⟩ | hdone := exec_cases h
    · exact .inl rfl
    · exact .inl (hdone.keeps.changesOnly .stack (stack_notMem_mayWrite s hret (not_exists.mp hcall)))

/-- `pc` after an instruction whose fetch succeeded (R37): an advance or a skip from at most `0xFFE`, a return address
of at most `0x1000`, or at most `0xFFF + 0xFF` from JP V0. -/
theorem nextPc_le {a : Word} (hpc : s.pc.toNat ≤ 0xFFE) (hstack : ∀ b ∈ s.stack, b.toNat ≤ 0x1000)
    (h : NextPc s a) : a.toNat ≤ 0x10FE := by
  cases h with
  | stay => omega
  | advance => bv_omega
  | skip => bv_omega
  | jump nnn => unfold zextAddr; bv_omega
  | jumpV0 nnn => unfold zextAddr zextByte; bv_omega
  | retAddr _ ha => exact (hstack a ha).trans (by decide)

theorem exec_stackInv {i : Instr} (h : exec i s = .next t) (hpc : s.pc.toNat ≤ 0xFFE) (hs : StackInv s) :
    StackInv t := by
  obtain ⟨haddr, hdepth⟩ := hs
  rw [StackInv, exec_cfg h]
  obtain hsame | ⟨a, hpop⟩ | ⟨hroom, hpush⟩ := exec_stack h
  · rw [hsame]
    exact ⟨haddr, hdepth⟩
  · rw [hpop] at haddr hdepth
    exact ⟨fun b hb => haddr b (List.mem_cons_of_mem a hb), fun d hd => Nat.le_of_succ_le (hdepth d hd)⟩
  · have haddrNew : (s.pc + 2).toNat ≤ 0x1000 := by bv_omega
    rw [hpush]
    exact ⟨List.forall_mem_cons.mpr ⟨haddrNew, haddr⟩, (stackFull_eq_false _ _).mp hroom⟩

theorem exec_inv {i : Instr} (h : exec i s = .next t) (hpc : s.pc.toNat ≤ 0xFFE) (hinv : Inv s) : Inv t := by
  obtain ⟨hwf, hstack, hle⟩ := hinv
  refine ⟨exec_wf h hwf, exec_stackInv h hpc hstack, ?_⟩
  obtain ⟨f, rfl⟩ | hdone := exec_cases h
  · exact hle
  · exact nextPc_le hpc hstack.1 hdone.nextPc

/-! ## A step -/

/-- A fetch that succeeds has read two existing bytes (R80). -/
theorem pc_le_of_fetch {w : Word} (h : fetch s = .ok w) : s.pc.toNat ≤ 0xFFE := by
  by_contra hpc
  have hout : ¬ s.pc.toNat + 1 < memSize := by simp only [memSize]; omega
  rw [fetch_outside s hout] at h
  cases h

theorem step_inv (h : step s = .next t) (hinv : Inv s) : Inv t := by
  obtain ⟨-, ⟨a, -, rfl⟩ | ⟨w, e, -, -, rfl⟩ | ⟨w, i, hfetch, -, hexec⟩⟩ := step_cases s t h
  · exact hinv
  · exact hinv
  · exact exec_inv hexec (pc_le_of_fetch hfetch) hinv

/-- The configuration is constant (R43). -/
theorem step_cfg (h : step s = .next t) : t.cfg = s.cfg := by
  obtain ⟨-, ⟨a, -, rfl⟩ | ⟨w, e, -, -, rfl⟩ | ⟨w, i, -, -, hexec⟩⟩ := step_cases s t h
  · rfl
  · rfl
  · exact exec_cfg hexec

/-! ## The host's operations -/

/-- From a state that meets the invariant, the invariant and the configuration are kept (R43). -/
def KeepsInv (s t : State) : Prop := Inv s → Inv t ∧ t.cfg = s.cfg

theorem keepsInv_refl (s : State) : KeepsInv s s := fun hinv => ⟨hinv, rfl⟩

theorem keepsInv_trans {u : State} (hst : KeepsInv s t) (htu : KeepsInv t u) : KeepsInv s u := fun hinv =>
  have ⟨hinvt, hcfgt⟩ := hst hinv
  have ⟨hinvu, hcfgu⟩ := htu hinvt
  ⟨hinvu, hcfgu.trans hcfgt⟩

theorem keepsInv_stepPort (s : State) : KeepsInv s (stepPort s).1 := by
  obtain hstep | hsame := stepPort_cases s
  · exact fun hinv => ⟨step_inv hstep hinv, step_cfg hstep⟩
  · rw [hsame]
    exact keepsInv_refl s

theorem keepsInv_tick (s : State) : KeepsInv s (tick s) := by
  unfold tick
  split
  · exact fun hinv => ⟨hinv, rfl⟩
  · exact keepsInv_refl s

theorem keepsInv_setKey {k : Nat} {b : Bool} (h : setKey k b s = .ok t) : KeepsInv s t := by
  obtain ⟨-, hk, rfl⟩ := setKey_ok k b s t h
  exact fun hinv => ⟨hinv, rfl⟩

theorem keepsInv_loadImage {image : List Byte} (h : loadImage image s = .ok t) : KeepsInv s t := by
  obtain ⟨-, hlen, rfl⟩ := loadImage_ok image s t h
  intro ⟨hwf, hstack, hpc⟩
  have hfits : progBase.toNat + image.length ≤ memSize := by
    simp only [progBase, memSize, maxImage] at hlen ⊢; bv_omega
  exact ⟨⟨wf_copyImage image s.mem hwf progBase.toNat hfits, hstack, hpc⟩, rfl⟩

theorem keepsInv_hostOp (op : HostOp) (n : Instance) : KeepsInv n.core (hostOp op n).1.core := by
  obtain h | ⟨image, t, -, -, hload, h⟩ | ⟨-, -, h⟩ | ⟨-, h⟩ | ⟨k, b, t, -, hkey, h⟩ := hostOp_cases op n
  all_goals rw [h]
  · exact keepsInv_refl n.core
  · exact keepsInv_loadImage hload
  · exact keepsInv_stepPort n.core
  · exact keepsInv_tick n.core
  · exact keepsInv_setKey hkey

theorem keepsInv_runOps (ops : List HostOp) (n : Instance) : KeepsInv n.core (runOps ops n).core := by
  induction ops generalizing n with
  | nil => exact keepsInv_refl n.core
  | cons op ops ih => exact keepsInv_trans (keepsInv_hostOp op n) (ih _)

/-! ## The statements -/

/-- Settles O58: memory and stack are empty, and `pc` is PROG_BASE. -/
theorem constructionMeetsTheInvariant : Obligations.ConstructionMeetsTheInvariant := by
  unfold Obligations.ConstructionMeetsTheInvariant
  intro cfg
  have hstack : StackInv (State.construct cfg) := by simp [StackInv, State.construct]
  exact ⟨wf_nil, hstack, by simp [State.construct, progBase]⟩

/-- Settles O59: a fault touches FS only, and an instruction that runs keeps its frame and has fetched from a `pc` of
at most `0xFFE`. -/
theorem everyStepKeepsTheInvariant : Obligations.EveryStepKeepsTheInvariant := by
  unfold Obligations.EveryStepKeepsTheInvariant
  intro s t hinv h
  exact step_inv h hinv

/-- Settles O60, by induction over the sequence of host operations. -/
theorem everyHostRunKeepsTheInvariant : Obligations.EveryHostRunKeepsTheInvariant := by
  unfold Obligations.EveryHostRunKeepsTheInvariant
  exact ⟨keepsInv_hostOp, keepsInv_runOps⟩

end Sys2Proof.Proofs
end

section
/-! SUPPORT. One byte of memory: what a write answers and keeps, that the next read and the next fetch see it, and
that only LD B and LD [I],Vx change a byte (20_memory.md R72, R73, R78, R80, R84, R90). -/

namespace Sys2Proof.Proofs

open Sys2Proof.Machine Sys2Proof.Cert

variable {s t : State} {a : Nat} {b : Byte}

/-! ## One write -/

theorem memWrite_inside (s : State) (b : Byte) (ha : a < memSize) :
    memWrite s a b = .ok { s with mem := memStore s.cfg.font s.mem a b } := if_pos ha

theorem memWrite_outside (s : State) (b : Byte) (ha : ¬ a < memSize) : memWrite s a b = .error a := if_neg ha

/-- A write that succeeds has stored its byte at an existing address and touched nothing but memory (R73). -/
theorem memWrite_ok (h : memWrite s a b = .ok t) :
    a < memSize ∧ t = { s with mem := memStore s.cfg.font s.mem a b } := by
  by_cases ha : a < memSize
  · rw [memWrite_inside s b ha] at h
    exact ⟨ha, (Except.ok.inj h).symm⟩
  · rw [memWrite_outside s b ha] at h
    cases h

theorem byteAt_memWrite_same (hwf : Memory.wf s.cfg.font s.mem) (h : memWrite s a b = .ok t) : t.byteAt a = b := by
  obtain ⟨-, rfl⟩ := memWrite_ok h
  exact (memLookup_memStore s.mem hwf.1 a a b).trans (if_pos rfl)

/-- The frame of one write: it copies a sequence of one byte. -/
theorem changesOnly_memWrite (h : memWrite s a b = .ok t) : ChangesOnly [.byte a] s t := by
  obtain ⟨ha, rfl⟩ := memWrite_ok h
  exact ((Keeps.refl s).copyBytes a [b] ha).changesOnly

/-! ## The fetch -/

@[simp] theorem hiByte_wordOfBytes (hi lo : Byte) : hiByte (wordOfBytes hi lo) = hi := by
  apply BitVec.eq_of_toNat_eq
  rw [toNat_hiByte, toNat_wordOfBytes]
  omega

@[simp] theorem loByte_wordOfBytes (hi lo : Byte) : loByte (wordOfBytes hi lo) = lo := by
  apply BitVec.eq_of_toNat_eq
  rw [toNat_loByte, toNat_wordOfBytes]
  omega

/-- The word of a fetch that succeeds is the two bytes at `pc`, the high byte first (R78). -/
theorem fetch_ok {w : Word} (h : fetch s = .ok w) :
    w = wordOfBytes (s.byteAt s.pc.toNat) (s.byteAt (s.pc.toNat + 1)) := by
  have hpc := pc_le_of_fetch h
  have hin : s.pc.toNat + 1 < memSize := by simp only [memSize]; omega
  rw [fetch_inside s hin] at h
  exact (Except.ok.inj h).symm

/-! ## The instructions that write memory -/

theorem byte_mem_storedBytes {n : Nat} : Part.byte a ∈ storedBytes s n ↔ ∃ k, k < n ∧ a = effAddr s k := by
  simp [storedBytes, eq_comm]

/-- A byte stands in the frame of a store only, among the bytes it stores to (R84, R204, R205). -/
theorem byte_mem_mayWrite {i : Instr} (h : Part.byte a ∈ mayWrite s i) :
    (∃ x, i = .ldB x ∧ ∃ k, k < 3 ∧ a = effAddr s k) ∨
      (∃ x : Reg, i = .ldMemVx x ∧ ∃ k, k < x.val + 1 ∧ a = effAddr s k) := by
  cases i
  case ldB x => exact .inl ⟨x, rfl, byte_mem_storedBytes.mp (by simpa [mayWrite] using h)⟩
  case ldMemVx x =>
    have hstored : Part.byte a ∈ storedBytes s (x.val + 1) := by
      cases hls : s.cfg.lsCompat <;> simpa [mayWrite, hls] using h
    exact .inr ⟨x, rfl, byte_mem_storedBytes.mp hstored⟩
  case ldVxMem x => cases hls : s.cfg.lsCompat <;> simp [mayWrite, hls] at h
  all_goals simp [mayWrite] at h

/-- A byte outside the frame reads the same, fault or not. -/
theorem exec_byteAt {i : Instr} (h : exec i s = .next t) (ha : Part.byte a ∉ mayWrite s i) :
    t.byteAt a = s.byteAt a := by
  obtain ⟨f, rfl⟩ | hdone := exec_cases h
  · rfl
  · exact hdone.keeps.changesOnly (.byte a) ha

/-! ## The statements -/

/-- Settles O40: a write to any existing address reads back, and a byte that an instruction changes stands in its
frame, so the instruction is a store. -/
theorem onlyStoresWriteMemory : Obligations.OnlyStoresWriteMemory := by
  unfold Obligations.OnlyStoresWriteMemory
  refine ⟨fun s a b hwf ha => ?_, fun i s t a h hne => ?_⟩
  · have hwrite := memWrite_inside s b ha
    exact ⟨_, hwrite, byteAt_memWrite_same hwf hwrite⟩
  · exact byte_mem_mayWrite (by_contra fun hout => hne (exec_byteAt h hout))

/-- Settles O9: the fetch as one word of two existing bytes, or as the lowest address that does not exist. -/
theorem fetchIsBigEndianAndChecked : Obligations.FetchIsBigEndianAndChecked := by
  unfold Obligations.FetchIsBigEndianAndChecked
  intro s
  refine ⟨fun hpc => ?_, fun hpc => ?_, fun hpc => ?_⟩
  · have hin : s.pc.toNat + 1 < memSize := by simp only [memSize]; omega
    exact ⟨_, fetch_inside s hin, by rw [toNat_wordOfBytes, Nat.mul_comm]⟩
  · have hout : ¬ s.pc.toNat + 1 < memSize := by simp only [memSize]; omega
    rw [fetch_outside s hout, hpc]
    rfl
  · have hout : ¬ s.pc.toNat + 1 < memSize := by simp only [memSize]; omega
    rw [fetch_outside s hout, max_eq_left (show memSize ≤ s.pc.toNat from hpc)]

/-- Settles O35, from what one read and one write answer inside and outside the address space. -/
theorem memoryReadAfterWrite : Obligations.MemoryReadAfterWrite := by
  unfold Obligations.MemoryReadAfterWrite
  refine ⟨fun s a ha => ?_, fun s a ha => memRead_inside s a ha, fun s a b hwf ha => ?_⟩
  · have hout : ¬ a < memSize := Nat.not_lt.mpr ha
    exact ⟨memRead_outside s a hout, fun b => memWrite_outside s b hout⟩
  · have hwrite := memWrite_inside s b ha
    refine ⟨_, hwrite, ?_, changesOnly_memWrite hwrite⟩
    rw [memRead_inside _ a ha, byteAt_memWrite_same hwf hwrite]

/-- Settles O41: the fetched word is the bytes at `pc` and `pc + 1` of the written state. -/
theorem fetchSeesTheLastStore : Obligations.FetchSeesTheLastStore := by
  unfold Obligations.FetchSeesTheLastStore
  intro s t a b w hwf hwrite hfetch
  have hread : t.byteAt a = b := byteAt_memWrite_same hwf hwrite
  rw [fetch_ok hfetch]
  refine ⟨?_, ?_⟩
  · rintro rfl
    exact (hiByte_wordOfBytes _ _).trans hread
  · rintro rfl
    exact (loByte_wordOfBytes _ _).trans hread

end Sys2Proof.Proofs
end

section
/-! SUPPORT. A word's fields rebuild it (30_encoding.md R101-R104, R116). -/

namespace Sys2Proof.Proofs

theorem toNat_lead (w : Word) : (nibbles w).1.toNat = w.toNat / 0x1000 := by
  have hw := w.isLt
  simp [nibbles, Nat.shiftRight_eq_div_pow]
  omega

theorem encAddress_fields {op : Nibble} {w : Word} (hlead : w.toNat / 0x1000 = op.toNat) :
    encAddress op (fieldNnn w) = w := by
  apply BitVec.eq_of_toNat_eq
  rw [toNat_encAddress, toNat_fieldNnn]
  omega

theorem encRegImm_fields {op : Nibble} {kk : Byte} {w : Word} (hlead : w.toNat / 0x1000 = op.toNat)
    (hlow : w.toNat % 0x100 = kk.toNat) : encRegImm op (fieldX w) kk = w := by
  apply BitVec.eq_of_toNat_eq
  rw [toNat_encRegImm, val_fieldX]
  omega

theorem encRegReg_fields {op n : Nibble} {w : Word} (hlead : w.toNat / 0x1000 = op.toNat)
    (hlow : w.toNat % 0x10 = n.toNat) : encRegReg op (fieldX w) (fieldY w) n = w := by
  apply BitVec.eq_of_toNat_eq
  rw [toNat_encRegReg, val_fieldX, val_fieldY]
  omega

theorem exists_encRegReg {op : Nibble} {w : Word} (hlead : w.toNat / 0x1000 = op.toNat) :
    ∃ x y n, w = encRegReg op x y n :=
  ⟨_, _, _, (encRegReg_fields hlead (toNat_fieldN w).symm).symm⟩

/-- Settles O3: the nibbles by their place in the word, and each form by its leading nibble and low field. -/
theorem fieldsRebuildTheWord : Obligations.FieldsRebuildTheWord := by
  unfold Obligations.FieldsRebuildTheWord
  intro w
  have hlead := (toNat_lead w).symm
  exact ⟨(word_eq_nibbles w).symm, encAddress_fields hlead, encRegImm_fields hlead (toNat_fieldKk w).symm,
    encRegReg_fields hlead (toNat_fieldN w).symm⟩

end Sys2Proof.Proofs
end

section
/-! SUPPORT. The opcode map row by row: no two rows outside the `0` family share a word, so there a row that matches is
the one dispatch takes, and a word is rejected where no row matches (30_encoding.md R108-R110). -/

namespace Sys2Proof.Proofs

open Sys2Proof.Cert

variable {strict : Bool} {w : Word}

/-! ## No overlap outside the `0` family -/

/-- The row fixes the leading nibble, to 0. -/
def inZeroFamily (r : OpcodeRow) : Bool := r.mask &&& 0xF000 == 0xF000 && r.pattern &&& 0xF000 == 0

/-- Some bit that both rows fix has one value in `r` and the other in `q`. -/
def masksDiffer (r q : OpcodeRow) : Bool := r.pattern &&& q.mask != q.pattern &&& r.mask

theorem lead_of_inZeroFamily {r : OpcodeRow} (hzero : inZeroFamily r = true) (hr : r.matchesWord w = true) :
    w.toNat / 0x1000 = 0 := by
  simp only [inZeroFamily, OpcodeRow.matchesWord, Bool.and_eq_true, beq_iff_eq] at hzero hr
  obtain ⟨hmask, hpattern⟩ := hzero
  have hand : w &&& 0xF000 = 0 := by rw [← hmask, ← BitVec.and_assoc, hr, hpattern]
  have hnum := and_mask_F000 w
  rw [hand, show (0 : Word).toNat = 0 from rfl] at hnum
  omega

theorem not_both_match {r q : OpcodeRow} (hdiffer : masksDiffer r q = true) (hr : r.matchesWord w = true) :
    q.matchesWord w = false := by
  simp only [masksDiffer, bne_iff_ne] at hdiffer
  simp only [OpcodeRow.matchesWord, beq_iff_eq, beq_eq_false_iff_ne] at hr ⊢
  intro hq
  refine hdiffer ?_
  rw [← hr, ← hq, BitVec.and_assoc, BitVec.and_assoc, BitVec.and_comm r.mask]

/-- Any two rows differ in a bit that both fix, unless the first is one of the `0` family's (R109). -/
theorem rows_differ (strict : Bool) :
    (opcodeRows strict).Pairwise fun r q => inZeroFamily r = true ∨ masksDiffer r q = true := by
  cases strict <;> decide

theorem length_filter_le_one {α : Type} {p : α → Bool} {l : List α}
    (h : l.Pairwise fun a b => p a = true → p b = false) : (l.filter p).length ≤ 1 := by
  induction l with
  | nil => simp
  | cons a l ih =>
    obtain ⟨hhead, htail⟩ := List.pairwise_cons.mp h
    cases ha : p a with
    | false => simpa [ha] using ih htail
    | true =>
      have hnone : l.filter p = [] := List.filter_eq_nil_iff.mpr fun b hb => by simp [hhead b hb ha]
      simp [ha, hnone]

/-- Outside the `0` family at most one row matches (R109). -/
theorem matching_rows_le_one (strict : Bool) (hlead : w.toNat / 0x1000 ≠ 0) :
    ((opcodeRows strict).filter fun r => r.matchesWord w).length ≤ 1 := by
  refine length_filter_le_one ((rows_differ strict).imp fun hrq hr => ?_)
  obtain hzero | hdiffer := hrq
  · exact absurd (lead_of_inZeroFamily hzero hr) hlead
  · exact not_both_match hdiffer hr

/-! ## Dispatch as a row of the map -/

theorem dispatch_of_mem {r : OpcodeRow} (hlead : w.toNat / 0x1000 ≠ 0) (hmem : r ∈ opcodeRows strict)
    (hr : r.matchesWord w = true) : dispatch strict w = .ok (r.make w) := by
  have hfilter : r ∈ (opcodeRows strict).filter fun q => q.matchesWord w := List.mem_filter.mpr ⟨hmem, hr⟩
  obtain ⟨q, hq⟩ := List.length_eq_one_iff.mp
    (le_antisymm (matching_rows_le_one strict hlead) (List.length_pos_of_mem hfilter))
  have hrq : r = q := by simpa [hq] using hfilter
  rw [dispatch, ← List.head?_filter, hq, hrq]
  rfl

theorem dispatch_of_no_row (h : ∀ r ∈ opcodeRows strict, r.matchesWord w = false) :
    dispatch strict w = .error (.unimplemented w) := by
  have hnone : (opcodeRows strict).find? (fun r => r.matchesWord w) = none :=
    List.find?_eq_none.mpr fun r hr => by simp [h r hr]
  rw [dispatch, hnone]

theorem dispatch_of_some_row (h : ∃ r ∈ opcodeRows strict, r.matchesWord w = true) :
    ∃ i, dispatch strict w = .ok i := by
  obtain ⟨r, hr⟩ := Option.isSome_iff_exists.mp (List.find?_isSome.mpr h)
  exact ⟨r.make w, by rw [dispatch, hr]⟩

/-- What is decoded was made by a row that matches. -/
theorem dispatch_ok {i : Instr} (h : dispatch strict w = .ok i) :
    ∃ r ∈ opcodeRows strict, r.matchesWord w = true ∧ r.make w = i := by
  unfold dispatch at h
  split at h
  case h_1 r hr =>
    have hmatch := List.find?_some hr
    exact ⟨r, List.mem_of_find?_eq_some hr, hmatch, Except.ok.inj h⟩
  case h_2 => cases h

/-! ## The words of no row -/

theorem matches_lowNibbleMask (strict : Bool) (p w : Word) (f : Word → Instr) :
    (OpcodeRow.mk p (lowNibbleMask strict) f).matchesWord w =
      decide (if strict = true then w.toNat / 0x1000 = p.toNat / 0x1000 ∧ w.toNat % 0x10 = p.toNat % 0x1000
        else w.toNat / 0x1000 * 0x1000 = p.toNat) := by
  cases strict
  · exact matches_F000 p w f
  · exact matches_F00F p w f

/-- R110's list is what the 35 rows leave over, leading nibble by leading nibble. -/
theorem illegalWord_iff (strict : Bool) (w : Word) :
    illegalWord strict w ↔ ∀ r ∈ opcodeRows strict, r.matchesWord w = false := by
  have hlead : w.toNat / 0x1000 < 0x10 := by have := w.isLt; omega
  have hzero := ne_of_lead w
  simp only [illegalWord, opcodeRows, List.cons_append, List.nil_append, List.forall_mem_cons, matches_FFFF,
    matches_F000, matches_F00F, matches_F0FF, matches_lowNibbleMask, decide_eq_false_iff_not]
  simp only [BitVec.ofNat_eq_ofNat, BitVec.toNat_ofNat, Nat.reducePow, Nat.reduceMod, Nat.reduceDiv]
  generalize w.toNat / 0x1000 = n1 at *
  interval_cases n1
  all_goals simp [hzero]
  -- The leading nibbles 5, 8 and 9 are left.
  · exact and_comm
  · omega
  · exact and_comm

theorem dispatch_of_illegalWord (h : illegalWord strict w) : dispatch strict w = .error (.unimplemented w) :=
  dispatch_of_no_row ((illegalWord_iff strict w).mp h)

theorem dispatch_of_not_illegalWord (h : ¬ illegalWord strict w) : ∃ i, dispatch strict w = .ok i := by
  rw [illegalWord_iff] at h
  exact dispatch_of_some_row (by simpa using h)

/-- Settles O6: the words R110 lists are those that no row matches. -/
theorem unimplementedWordsAreThoseListed : Obligations.UnimplementedWordsAreThoseListed := by
  unfold Obligations.UnimplementedWordsAreThoseListed
  intro strict w
  exact ⟨dispatch_of_illegalWord, dispatch_of_not_illegalWord⟩

end Sys2Proof.Proofs
end

section
/-! SUPPORT. Dispatch undoes `encode`: every encoded instruction lies in its own row, and its row makes it again
(30_encoding.md R108, R109, R112, R116). -/

namespace Sys2Proof.Proofs

open Sys2Proof.Cert

/-! ## The row of an instruction -/

/-- The encoding of an instruction lies in a row of the map that makes the instruction from it. -/
theorem encode_in_row (strict : Bool) (i : Instr) :
    ∃ r ∈ opcodeRows strict, r.matchesWord (encode i) = true ∧ r.make (encode i) = i := by
  cases i
  case cls | ret => simp [opcodeRows, encode, OpcodeRow.matchesWord]
  case sys | jp | call | ldI | jpV0 =>
    simp [opcodeRows, encode]
    exact encAddress_in_row _ _ _ _ rfl
  case seImm | sneImm | ldImm | addImm | rnd =>
    simp [opcodeRows, encode]
    exact encRegImm_in_row _ _ _ _ _ rfl
  case drw =>
    simp [opcodeRows, encode]
    exact encRegReg_in_row _ _ _ _ _ _ rfl
  case seReg | sneReg =>
    cases strict
    · simp [opcodeRows, encode, lowNibbleMask]
      exact encRegReg_in_row _ _ _ _ _ _ rfl
    · simp [opcodeRows, encode, lowNibbleMask]
      exact encRegReg_in_subrow _ _ _ _ _ _ rfl
  case ldReg | orReg | andReg | xorReg | addReg | subReg | shr | subn | shl =>
    simp [opcodeRows, encode]
    exact encRegReg_in_subrow _ _ _ _ _ _ rfl
  all_goals
    simp [opcodeRows, encode]
    exact encRegImm_in_subrow _ _ _ _ _ rfl

theorem dispatch_encode_of_lead (strict : Bool) (i : Instr) (hlead : (encode i).toNat / 0x1000 ≠ 0) :
    dispatch strict (encode i) = .ok i := by
  obtain ⟨r, hmem, hmatch, hmake⟩ := encode_in_row strict i
  rw [dispatch_of_mem hlead hmem hmatch, hmake]

/-- In the `0` family SYS gets the words that CLS and RET have not taken (R109). -/
theorem dispatch_sys (strict : Bool) (nnn : Addr12) (hcls : nnn ≠ 0x0E0) (hret : nnn ≠ 0x0EE) :
    dispatch strict (encAddress 0x0 nnn) = .ok (.sys nnn) := by
  have hnotCls : nnn.toNat ≠ 0x0E0 := by bv_omega
  have hnotRet : nnn.toNat ≠ 0x0EE := by bv_omega
  have hlead : nnn.toNat / 0x1000 = 0 := by omega
  simp [dispatch_eq, hnotCls, hnotRet, hlead]

/-- DISPATCH UNDOES ENCODE, for every instruction whose word is its own row's. -/
theorem dispatch_encode (strict : Bool) (i : Instr) (hwf : i.wellFormed = true) :
    dispatch strict (encode i) = .ok i := by
  cases i
  case cls | ret => rw [dispatch_eq]; rfl
  case sys nnn =>
    obtain ⟨hcls, hret⟩ : nnn ≠ 0x0E0 ∧ nnn ≠ 0x0EE := by simpa [Instr.wellFormed, sysReserved] using hwf
    exact dispatch_sys strict nnn hcls hret
  case jp | call | ldI | jpV0 =>
    exact dispatch_encode_of_lead strict _ (by rw [encode, lead_encAddress]; decide)
  case drw | seReg | sneReg | ldReg | orReg | andReg | xorReg | addReg | subReg | shr | subn | shl =>
    exact dispatch_encode_of_lead strict _ (by rw [encode, lead_encRegReg]; decide)
  all_goals exact dispatch_encode_of_lead strict _ (by rw [encode, lead_encRegImm]; decide)

theorem dispatch_of_toNat {strict : Bool} {w : Word} (i : Instr) (hwf : i.wellFormed = true)
    (hw : w.toNat = (encode i).toNat) : dispatch strict w = .ok i := by
  rw [BitVec.eq_of_toNat_eq hw, dispatch_encode strict i hwf]

theorem decodeBytes_of_dispatch {strict : Bool} {hi lo : Byte} {i : Instr} (rest : List Byte)
    (h : dispatch strict (wordOfBytes hi lo) = .ok i) : decodeBytes strict (hi :: lo :: rest) = .ok (i, rest) := by
  rw [decodeBytes, h]

/-! ## The statements -/

/-- Settles O1: a well-formed instruction's word lies in its own row, and no row before takes it. -/
theorem decodeOfEncodeIsTheInstruction : Obligations.DecodeOfEncodeIsTheInstruction := by
  unfold Obligations.DecodeOfEncodeIsTheInstruction
  intro strict i hwf
  have hword := dispatch_encode strict i hwf
  refine ⟨hword, fun rest => decodeBytes_of_dispatch rest ?_⟩
  rw [wordOfBytes_hiByte_loByte, hword]

/-- Settles O5: each row's number is that of an encoded instruction, and dispatch undoes `encode`. -/
theorem everyRowDecodesByItsPattern : Obligations.EveryRowDecodesByItsPattern := by
  unfold Obligations.EveryRowDecodesByItsPattern
  intro strict x y n kk nnn w
  refine ⟨dispatch_of_toNat .cls rfl, dispatch_of_toNat .ret rfl, fun h hcls hret => ?_, ?_⟩
  · have hwf : (Instr.sys nnn).wellFormed = true := by
      simpa [Instr.wellFormed, sysReserved] using ⟨hcls, hret⟩
    exact dispatch_of_toNat (.sys nnn) hwf (by simpa [encode] using h)
  · and_intros
    all_goals
      intro h
      refine dispatch_of_toNat _ rfl ?_
      simp only [encode, toNat_encAddress, toNat_encRegImm, toNat_encRegReg, BitVec.ofNat_eq_ofNat,
        BitVec.toNat_ofNat]
      omega

/-- Settles O8: the `0` family by `dispatch_encode`, the other families by the rows' patterns and masks. -/
theorem zeroFamilyPrecedenceAndNoOtherOverlap : Obligations.ZeroFamilyPrecedenceAndNoOtherOverlap := by
  unfold Obligations.ZeroFamilyPrecedenceAndNoOtherOverlap
  exact ⟨fun strict => ⟨dispatch_encode strict .cls rfl, dispatch_encode strict .ret rfl⟩, dispatch_sys,
    fun strict _ hlead => matching_rows_le_one strict hlead⟩

/-- Settles O4: each word is the encoding of its instruction, and `5123` is one of R110's words. -/
theorem sampleWordsDecodeByTheOpcodeMap : Obligations.SampleWordsDecodeByTheOpcodeMap := by
  unfold Obligations.SampleWordsDecodeByTheOpcodeMap
  have hillegal : illegalWord true 0x5123 := .inl (by decide)
  exact ⟨dispatch_encode _ .cls rfl, dispatch_encode _ .ret rfl, dispatch_encode _ (.sys 0x123) rfl,
    dispatch_encode _ (.call 0x210) rfl, dispatch_encode _ (.sneImm 3 0x42) rfl, dispatch_encode _ (.shr 10 11) rfl,
    dispatch_encode _ (.subn 10 11) rfl, dispatch_encode _ (.jpV0 0x300) rfl, dispatch_encode _ (.drw 1 2 5) rfl,
    dispatch_encode _ (.sknp 4) rfl, dispatch_encode _ (.ldVxK 3) rfl, dispatch_encode _ (.ldMemVx 2) rfl,
    dispatch_of_illegalWord hillegal⟩

end Sys2Proof.Proofs
end

section
/-! SUPPORT. `encode` undoes dispatch: under a true STRICT_LOW_NIBBLE what a row makes from a word encodes to the word;
a false one reads `5xyN` and `9xyN` with the low nibble taken as 0 (30_encoding.md R112, R115, R116). -/

namespace Sys2Proof.Proofs

open Sys2Proof.Cert

/-! ## Every low nibble counts -/

/-- `matches_F000` with its sides exchanged, as `omega` takes it. -/
theorem matches_F000_symm (p w : Word) (f : Word → Instr) :
    (OpcodeRow.mk p 0xF000 f).matchesWord w = decide (p.toNat = w.toNat / 0x1000 * 0x1000) := by
  simp only [matches_F000, eq_comm]

/-- What a row of the strict map makes from a word of its own encodes to the word. -/
theorem encode_make (w : Word) : ∀ r ∈ opcodeRows true, r.matchesWord w = true → encode (r.make w) = w := by
  simp only [opcodeRows, lowNibbleMask, List.cons_append, List.nil_append, List.forall_mem_cons, List.not_mem_nil,
    matches_FFFF, matches_F000_symm, matches_F00F, matches_F0FF, decide_eq_true_eq, if_true, false_imp_iff,
    implies_true, and_true]
  and_intros
  all_goals
    intro hrow
    apply BitVec.eq_of_toNat_eq
    simp only [encode, toNat_encAddress, toNat_encRegImm, toNat_encRegReg, toNat_fieldNnn, val_fieldX, val_fieldY,
      toNat_fieldN, toNat_fieldKk, BitVec.ofNat_eq_ofNat, BitVec.toNat_ofNat] at hrow ⊢
    omega

theorem encode_of_dispatch {w : Word} {i : Instr} (h : dispatch true w = .ok i) : encode i = w := by
  obtain ⟨r, hmem, hmatch, rfl⟩ := dispatch_ok h
  exact encode_make w r hmem hmatch

/-- What is decoded is well formed: a reserved SYS would encode to a word that is CLS or RET (R109). -/
theorem wellFormed_of_dispatch {w : Word} {i : Instr} (h : dispatch true w = .ok i) : i.wellFormed = true := by
  have hword := encode_of_dispatch h
  cases i
  case sys nnn =>
    by_contra hwf
    have hreserved : sysReserved nnn = true := by simpa [Instr.wellFormed] using hwf
    subst hword
    obtain rfl | rfl : nnn = 0x0E0 ∨ nnn = 0x0EE := by simpa [sysReserved] using hreserved
    · cases h.symm.trans (dispatch_encode true .cls rfl)
    · cases h.symm.trans (dispatch_encode true .ret rfl)
  all_goals rfl

/-! ## The low nibble of `5xyN` and `9xyN` ignored -/

theorem encRegReg_and_mask_FFF0 (op : Nibble) (x y : Reg) (n : Nibble) :
    encRegReg op x y n &&& 0xFFF0 = encRegReg op x y 0 := by
  have hmask : (0xFFF0 : Word) = (0xF#4 ++ (0xF#4 ++ (0xF#4 ++ 0x0#4 : Byte) : Addr12) : Word) := by decide
  rw [hmask, encRegReg, BitVec.and_append, BitVec.and_append, BitVec.and_append]
  simp only [nibble_and_ones, BitVec.and_zero]
  rfl

/-- A row of the lenient map that fixes no more than the leading nibble takes a word whatever its low nibble. -/
theorem dispatch_false_encRegReg {op : Nibble} {p : Word} {make : Reg → Reg → Instr} (hop : op.toNat ≠ 0)
    (hp : op.toNat * 0x1000 = p.toNat)
    (hmem : ⟨p, 0xF000, fun w => make (fieldX w) (fieldY w)⟩ ∈ opcodeRows false) (x y : Reg) (n : Nibble) :
    dispatch false (encRegReg op x y n) = .ok (make x y) := by
  have hlead : (encRegReg op x y n).toNat / 0x1000 ≠ 0 := by rwa [lead_encRegReg]
  simpa using dispatch_of_mem hlead hmem (encRegReg_in_row op x y n p _ hp)

theorem dispatch_false_seReg (x y : Reg) (n : Nibble) : dispatch false (encRegReg 0x5 x y n) = .ok (.seReg x y) :=
  dispatch_false_encRegReg (p := 0x5000) (by decide) rfl (by simp [opcodeRows, lowNibbleMask]) x y n

theorem dispatch_false_sneReg (x y : Reg) (n : Nibble) : dispatch false (encRegReg 0x9 x y n) = .ok (.sneReg x y) :=
  dispatch_false_encRegReg (p := 0x9000) (by decide) rfl (by simp [opcodeRows, lowNibbleMask]) x y n

/-- The lenient map reads `5xyN` and `9xyN` as the strict map reads `5xy0` and `9xy0` (R112). -/
theorem dispatch_false_of_ignored (w : Word) (hlead : w.toNat / 0x1000 = 5 ∨ w.toNat / 0x1000 = 9) :
    dispatch false w = dispatch true (w &&& 0xFFF0) := by
  obtain h5 | h9 := hlead
  · obtain ⟨x, y, n, rfl⟩ := exists_encRegReg (op := 0x5) h5
    rw [encRegReg_and_mask_FFF0, dispatch_false_seReg]
    exact (dispatch_encode true (.seReg x y) rfl).symm
  · obtain ⟨x, y, n, rfl⟩ := exists_encRegReg (op := 0x9) h9
    rw [encRegReg_and_mask_FFF0, dispatch_false_sneReg]
    exact (dispatch_encode true (.sneReg x y) rfl).symm

theorem dispatch_false_of_not_ignored (w : Word) (hlead : ¬ (w.toNat / 0x1000 = 5 ∨ w.toNat / 0x1000 = 9)) :
    dispatch false w = dispatch true w := by
  obtain ⟨h5, h9⟩ := not_or.mp hlead
  simp only [dispatch_eq, h5, h9, if_false]

/-! ## The statements -/

/-- Settles O2: what the strict map decodes encodes to its word, and the lenient map is the strict one on the word
with the ignored nibble as 0. -/
theorem encodeOfDecodeIsTheWord : Obligations.EncodeOfDecodeIsTheWord := by
  unfold Obligations.EncodeOfDecodeIsTheWord
  intro strict w i h
  cases strict
  case true => exact ⟨wellFormed_of_dispatch h, by simpa using encode_of_dispatch h⟩
  case false =>
    by_cases hlead : w.toNat / 0x1000 = 5 ∨ w.toNat / 0x1000 = 9
    · rw [dispatch_false_of_ignored w hlead] at h
      exact ⟨wellFormed_of_dispatch h, by rw [if_pos ⟨rfl, hlead⟩, encode_of_dispatch h]⟩
    · rw [dispatch_false_of_not_ignored w hlead] at h
      exact ⟨wellFormed_of_dispatch h, by rw [if_neg (hlead ·.2), encode_of_dispatch h]⟩

/-- Settles O7: R110 lists the words, and the lenient rows leave the low nibble out. -/
theorem lowNibbleFollowsStrictParameter : Obligations.LowNibbleFollowsStrictParameter := by
  unfold Obligations.LowNibbleFollowsStrictParameter
  intro x y n hn
  have hlow (op : Nibble) : (encRegReg op x y n).toNat % 0x10 ≠ 0 := by
    rw [low_encRegReg]
    exact fun h => hn (BitVec.eq_of_toNat_eq h)
  have hillegal5 : illegalWord true (encRegReg 0x5 x y n) := .inl ⟨lead_encRegReg 0x5 x y n, hlow 0x5, rfl⟩
  have hillegal9 : illegalWord true (encRegReg 0x9 x y n) :=
    .inr (.inr (.inl ⟨lead_encRegReg 0x9 x y n, hlow 0x9, rfl⟩))
  exact ⟨dispatch_of_illegalWord hillegal5, dispatch_of_illegalWord hillegal9, dispatch_false_seReg x y n,
    dispatch_false_sneReg x y n⟩

end Sys2Proof.Proofs
end

section
/-! SUPPORT. What reads instructions out of memory: the step (30_encoding.md R107) and the decoder port (R106). -/

namespace Sys2Proof.Proofs

open Sys2Proof.Machine

variable {s : State}

/-! ## The step -/

theorem step_of_dispatch {w : Word} {i : Instr} (hfs : s.fs = none) (hfetch : fetch s = .ok w)
    (hdispatch : dispatch s.cfg.strictLowNibble w = .ok i) : step s = exec i s := by
  simp only [step, hfs, hfetch, hdispatch]

/-- Settles O10: with FS None, and the fetch and the dispatch as given, only `exec` is left of a step. -/
theorem stepRunsTheDecodedInstruction : Obligations.StepRunsTheDecodedInstruction := by
  unfold Obligations.StepRunsTheDecodedInstruction
  intro s w i hfs hfetch hdispatch
  exact step_of_dispatch hfs hfetch hdispatch

/-- Settles O11: the fetch puts the two bytes together again, and dispatch undoes `encode`. -/
theorem stepRunsTheEncodedInstructionAtPc : Obligations.StepRunsTheEncodedInstructionAtPc := by
  unfold Obligations.StepRunsTheEncodedInstructionAtPc
  intro s i hfs hpc hwf hbytes
  obtain ⟨hhi, hlo⟩ : hiByte (encode i) = s.byteAt s.pc.toNat ∧ loByte (encode i) = s.byteAt (s.pc.toNat + 1) := by
    simpa [encodeBytes] using hbytes
  have hin : s.pc.toNat + 1 < memSize := by simp only [memSize]; omega
  have hfetch : fetch s = .ok (encode i) := by rw [fetch_inside s hin, ← hhi, ← hlo, wordOfBytes_hiByte_loByte]
  exact step_of_dispatch hfs hfetch (dispatch_encode _ i hwf)

/-! ## The decoder port -/

theorem wordAt_inside {a : Nat} (h : a + 1 < memSize) :
    wordAt s a = some (wordOfBytes (s.byteAt a) (s.byteAt (a + 1))) := if_pos h

theorem wordAt_outside {a : Nat} (h : ¬ a + 1 < memSize) : wordAt s a = none := if_neg h

/-- Settles O56: both operations read the word of the two bytes, and each field is a part of its number. -/
theorem decoderPortReadsFields : Obligations.DecoderPortReadsFields := by
  unfold Obligations.DecoderPortReadsFields
  intro s a
  refine ⟨fun hout => ?_, fun hin => ?_⟩
  · have hword : wordAt s a = none := wordAt_outside (Nat.not_lt.mpr hout)
    simp [nibblesPort, argsPort, hword]
  · rintro hi lo rfl rfl
    have hword := wordAt_inside (s := s) hin
    have hnum := toNat_wordOfBytes (s.byteAt a) (s.byteAt (a + 1))
    generalize wordOfBytes (s.byteAt a) (s.byteAt (a + 1)) = w at hword hnum
    simp only [nibblesPort, argsPort, hword, Option.map_some]
    refine ⟨⟨_, _, _, _, rfl, ?_, ?_, ?_, ?_⟩, ⟨_, rfl, ?_⟩, ⟨_, _, rfl, ?_, ?_⟩, ⟨_, _, _, rfl, ?_, ?_, ?_⟩⟩
    all_goals
      simp only [BitVec.extractLsb'_toNat, Nat.shiftRight_eq_div_pow, toNat_fieldNnn, val_fieldX, val_fieldY,
        toNat_fieldN, toNat_fieldKk]
      omega

end Sys2Proof.Proofs
end

section
/-! SUPPORT. Control flow: what RET and CALL answer in each case, the values of `pc` as numbers, and the skips
(40_control_flow.md R142-R150). -/

namespace Sys2Proof.Proofs

open Sys2Proof.Machine Sys2Proof.Cert

variable {s t : State} {a : Word} {rest : List Word} {nnn : Addr12}

/-! ## RET and CALL -/

theorem exec_ret_cons (hstack : s.stack = a :: rest) : exec .ret s = .next ({ s with stack := rest }.jump a) := by
  simp only [exec, execRet, pop, hstack]

theorem exec_ret_nil (hstack : s.stack = []) : exec .ret s = raiseFault (.stackUnderflow s.pc) s := by
  simp only [exec, execRet, pop, hstack]

theorem exec_call_room (hroom : stackFull s.cfg.stackDepth s.stack.length = false) :
    exec (.call nnn) s = .next ({ s with stack := (s.pc + 2) :: s.stack }.jump (zextAddr nnn)) := by
  simp only [exec, execCall, push_room _ _ hroom]

theorem exec_call_full (hfull : stackFull s.cfg.stackDepth s.stack.length = true) :
    exec (.call nnn) s = raiseFault (.stackOverflow s.pc) s := by
  simp only [exec, execCall, push_full _ _ hfull]

/-- A CALL that leaves FS None was not one that raised StackOverflow, so it pushed (R145). -/
theorem call_stack_of_no_fault (h : exec (.call nnn) s = .next t) (hfs : t.fs = none) :
    t.stack = (s.pc + 2) :: s.stack := by
  obtain ⟨f, rfl⟩ | ⟨-, rfl⟩ := execCall_cases h
  · cases hfs
  · rfl

/-! ## Targets and skips as values of `pc` -/

@[simp] theorem toNat_zextAddr (nnn : Addr12) : (zextAddr nnn).toNat = nnn.toNat := by
  unfold zextAddr; bv_omega

/-- The sum of JP V0 is below `0x1000 + 0x100`, so 16 bits hold it (R150). -/
theorem toNat_zextAddr_add_zextByte (nnn : Addr12) (b : Byte) :
    (zextAddr nnn + zextByte b).toNat = nnn.toNat + b.toNat := by
  unfold zextAddr zextByte; bv_omega

/-- SE: skip when the operands are equal (R146, R148). -/
theorem skipIf_beq_pc (s : State) (b c : Byte) :
    (s.skipIf (b == c)).pc = if b = c then s.pc + 4 else s.pc + 2 := by
  simp only [State.skipIf_pc, beq_iff_eq]

/-- SNE: skip when the operands differ (R147, R149). -/
theorem skipIf_bne_pc (s : State) (b c : Byte) :
    (s.skipIf (b != c)).pc = if b = c then s.pc + 2 else s.pc + 4 := by
  simp only [State.skipIf_pc, bne_iff_ne, ne_eq, ite_not]

theorem changesOnly_skipIf (s : State) (c : Bool) : ChangesOnly [.pc] s (s.skipIf c) :=
  ((Keeps.refl s).skipIf c).changesOnly

theorem changesOnly_jump (s : State) (a : Word) : ChangesOnly [.pc] s (s.jump a) :=
  ((Keeps.refl s).jump a).changesOnly

theorem changesOnly_setStack_jump (s : State) (l : List Word) (a : Word) :
    ChangesOnly [.stack, .pc] s ({ s with stack := l }.jump a) :=
  (((Keeps.refl s).setStack l).jump a).changesOnly

/-! ## The statements -/

/-- Settles O21: the CALL pushed its `pc + 2`, and RET pops the newest entry of that same stack. -/
theorem callThenRetReturnsBehindTheCall : Obligations.CallThenRetReturnsBehindTheCall := by
  unfold Obligations.CallThenRetReturnsBehindTheCall
  intro nnn s t u hcall hfs hstack
  have hpushed : u.stack = (s.pc + 2) :: s.stack := hstack.trans (call_stack_of_no_fault hcall hfs)
  exact ⟨_, exec_ret_cons hpushed, rfl, rfl, changesOnly_setStack_jump u s.stack (s.pc + 2)⟩

/-- Settles O17: the meaning of SYS is `advance`, for every `nnn`. -/
theorem sysOnlyAdvances : Obligations.SysOnlyAdvances := by
  unfold Obligations.SysOnlyAdvances
  exact fun _ _ => rfl

/-- Settles O18: both are jumps, and 16 bits hold both targets. -/
theorem jumpsSetPc : Obligations.JumpsSetPc := by
  unfold Obligations.JumpsSetPc
  intro nnn s
  refine ⟨⟨_, rfl, ?_, changesOnly_jump s _⟩, ⟨_, rfl, ?_, changesOnly_jump s _⟩⟩
  · exact toNat_zextAddr nnn
  · exact toNat_zextAddr_add_zextByte nnn (s.getV 0)

/-- Settles O19: `stackFull` is false below STACK_DEPTH and without a bound, and true at STACK_DEPTH. -/
theorem callPushesReturnAddress : Obligations.CallPushesReturnAddress := by
  unfold Obligations.CallPushesReturnAddress
  intro nnn s
  refine ⟨fun hdepth => ?_, fun hdepth => ?_⟩
  · have hroom : stackFull s.cfg.stackDepth s.stack.length = false := (stackFull_eq_false _ _).mpr hdepth
    exact ⟨_, exec_call_room hroom, rfl, toNat_zextAddr nnn, changesOnly_setStack_jump s _ _⟩
  · have hfull : stackFull s.cfg.stackDepth s.stack.length = true := by simp [hdepth, stackFull]
    exact exec_call_full hfull

/-- Settles O20: the stack has a newest entry, or it is empty. -/
theorem retPopsReturnAddress : Obligations.RetPopsReturnAddress := by
  unfold Obligations.RetPopsReturnAddress
  refine fun s => ⟨fun a rest hstack => ?_, exec_ret_nil⟩
  exact ⟨_, exec_ret_cons hstack, rfl, rfl, changesOnly_setStack_jump s rest a⟩

/-- Settles O22: SE skips on `==`, SNE on `!=`. -/
theorem immediateSkips : Obligations.ImmediateSkips := by
  unfold Obligations.ImmediateSkips
  intro x kk s
  refine ⟨⟨_, rfl, ?_, changesOnly_skipIf s _⟩, ⟨_, rfl, ?_, changesOnly_skipIf s _⟩⟩
  · exact skipIf_beq_pc s (s.getV x) kk
  · exact skipIf_bne_pc s (s.getV x) kk

/-- Settles O23: as for the immediates; with `x = y` both operands are the same register. -/
theorem registerSkips : Obligations.RegisterSkips := by
  unfold Obligations.RegisterSkips
  intro x y s
  have hse := skipIf_beq_pc s (s.getV x) (s.getV y)
  have hsne := skipIf_bne_pc s (s.getV x) (s.getV y)
  refine ⟨⟨_, rfl, hse, fun hxy => ?_, changesOnly_skipIf s _⟩,
    ⟨_, rfl, hsne, fun hxy => ?_, changesOnly_skipIf s _⟩⟩
  · exact hse.trans (if_pos (congrArg s.getV hxy))
  · exact hsne.trans (if_pos (congrArg s.getV hxy))

end Sys2Proof.Proofs
end

section
/-! SUPPORT. The ALU: the bytes written as numbers, the flags as numbers, and the two shapes of an ALU meaning, with
and without a flag (41_alu.md R160-R174). -/

namespace Sys2Proof.Proofs

open Sys2Proof.Machine Sys2Proof.Cert

/-! ## Results (R160) -/

/-- A difference taken modulo 256 is the difference of the integers, brought back to 0..255 (R170, R172). -/
theorem toNat_sub_eq_emod (a b : Byte) : ((a - b).toNat : Int) = (a.toNat - b.toNat : Int) % 256 := by
  bv_omega

theorem toNat_ushiftRight_one (b : Byte) : (b >>> 1).toNat = b.toNat / 2 := by
  rw [BitVec.toNat_ushiftRight, Nat.shiftRight_one]

theorem toNat_shiftLeft_one (b : Byte) : (b <<< 1).toNat = b.toNat * 2 % 256 := by
  rw [BitVec.toNat_shiftLeft, Nat.shiftLeft_eq, pow_one]

/-! ## Flags (10_state.md R31) -/

theorem carryFlag_eq (a b : Byte) : carryFlag a b = if a.toNat + b.toNat > 255 then 1 else 0 := by
  simp only [carryFlag, flagByte, decide_eq_true_eq]

theorem borrowFlag_eq (a b : Byte) : borrowFlag a b = if a.toNat < b.toNat then 1 else 0 := by
  simp only [borrowFlag, flagByte, decide_eq_true_eq]

theorem notBorrowFlag_eq (a b : Byte) : notBorrowFlag a b = if a.toNat < b.toNat then 0 else 1 := by
  simp only [notBorrowFlag, flagByte, decide_eq_true_eq, ite_not]

theorem toNat_flagByte (c : Bool) : (flagByte c).toNat = c.toNat := by
  cases c <;> rfl

theorem toNat_shiftedOutRight (src : Byte) : (shiftedOutRight src).toNat = src.toNat % 2 := by
  rw [shiftedOutRight, toNat_flagByte, BitVec.getLsbD, Nat.toNat_testBit, pow_zero, Nat.div_one]

/-- Bit 7 is the whole quotient by 128, because a byte is below 256. -/
theorem toNat_shiftedOutLeft (src : Byte) : (shiftedOutLeft src).toNat = src.toNat / 128 := by
  rw [shiftedOutLeft, toNat_flagByte, BitVec.getLsbD, Nat.toNat_testBit]
  have hlt : src.toNat < 256 := src.isLt
  omega

/-! ## The frames of the shapes, and the destination of RND -/

theorem changesOnly_setV_advance (s : State) (x : Reg) (b : Byte) :
    ChangesOnly [.v x, .pc] s (s.setV x b).advance :=
  ((Keeps.refl s).setV x b).advance.changesOnly

theorem changesOnly_writeResultFlag_advance (s : State) (x : Reg) (r f : Byte) :
    ChangesOnly [.v x, .v regVF, .pc] s (writeResultFlag s x r f).advance :=
  ((Keeps.refl s).writeResultFlag x r f).advance.changesOnly

theorem changesOnly_rndWith (r : Byte) (x : Reg) (kk : Byte) (s : State) :
    ChangesOnly [.v x, .draws, .pc] s (rndWith r x kk s) :=
  ((((Keeps.refl s).setDraws _).setV x _).advance.mono (by simp)).changesOnly

theorem getV_rndWith (r : Byte) (x : Reg) (kk : Byte) (s : State) : (rndWith r x kk s).getV x = r &&& kk :=
  State.getV_setV_same _ x _

/-! ## The statements -/

/-- Settles O24: the destination reads back the byte written, `kk` or the sum. -/
theorem immediateLoadAndAdd : Obligations.ImmediateLoadAndAdd := by
  unfold Obligations.ImmediateLoadAndAdd
  intro x kk s
  refine ⟨⟨_, rfl, ?_, rfl, changesOnly_setV_advance s x _⟩, ⟨_, rfl, ?_, rfl, changesOnly_setV_advance s x _⟩⟩
  · exact State.getV_setV_same s x kk
  · rw [State.getV_advance, State.getV_setV_same]
    exact BitVec.toNat_add (s.getV x) kk

/-- Settles O25: the destination reads back the copy, or the bitwise operation, whose bits are those of the operands. -/
theorem copyAndLogic : Obligations.CopyAndLogic := by
  unfold Obligations.CopyAndLogic
  intro x y s
  refine ⟨⟨_, rfl, ?_, rfl, changesOnly_setV_advance s x _⟩,
    ⟨_, rfl, fun b _ => ?_, rfl, changesOnly_setV_advance s x _⟩,
    ⟨_, rfl, fun b _ => ?_, rfl, changesOnly_setV_advance s x _⟩,
    ⟨_, rfl, fun b _ => ?_, rfl, changesOnly_setV_advance s x _⟩⟩
  · exact State.getV_setV_same s x (s.getV y)
  · rw [State.getV_advance, State.getV_setV_same, BitVec.getLsbD_or]
  · rw [State.getV_advance, State.getV_setV_same, BitVec.getLsbD_and]
  · rw [State.getV_advance, State.getV_setV_same, BitVec.getLsbD_xor]

/-- Settles O26: the flag is written last, so VF holds the carry for every `x`. -/
theorem addWritesSumAndCarry : Obligations.AddWritesSumAndCarry := by
  unfold Obligations.AddWritesSumAndCarry
  intro x y s
  refine ⟨_, rfl, fun hx => ?_, ?_, rfl, changesOnly_writeResultFlag_advance s x _ _⟩
  · rw [State.getV_advance, getV_writeResultFlag_dest _ _ _ _ hx]
    exact BitVec.toNat_add (s.getV x) (s.getV y)
  · rw [State.getV_advance, getV_writeResultFlag_VF, carryFlag_eq]

/-- Settles O27: the flag is written last, so VF holds the not-borrow for every `x`. -/
theorem subWritesDifferenceAndNotBorrow : Obligations.SubWritesDifferenceAndNotBorrow := by
  unfold Obligations.SubWritesDifferenceAndNotBorrow
  intro x y s
  refine ⟨_, rfl, fun hx => ?_, ?_, rfl, changesOnly_writeResultFlag_advance s x _ _⟩
  · rw [State.getV_advance, getV_writeResultFlag_dest _ _ _ _ hx, toNat_sub_eq_emod]
  · rw [State.getV_advance, getV_writeResultFlag_VF, notBorrowFlag_eq]

/-- Settles O28: as SUB with the operands exchanged, and the flag is the borrow itself (C9). -/
theorem subnWritesDifferenceAndBorrow : Obligations.SubnWritesDifferenceAndBorrow := by
  unfold Obligations.SubnWritesDifferenceAndBorrow
  intro x y s
  refine ⟨_, rfl, fun hx => ?_, ?_, rfl, changesOnly_writeResultFlag_advance s x _ _⟩
  · rw [State.getV_advance, getV_writeResultFlag_dest _ _ _ _ hx, toNat_sub_eq_emod]
  · rw [State.getV_advance, getV_writeResultFlag_VF, borrowFlag_eq]

/-- Settles O29: `shiftSource` is the source the statement names, and the flag is its bit 0 or 7 as a number. -/
theorem shiftsMoveTheSelectedSource : Obligations.ShiftsMoveTheSelectedSource := by
  unfold Obligations.ShiftsMoveTheSelectedSource
  intro x y s src hsrc
  have hsource : (shiftSource s x y).toNat = src := hsrc.symm
  refine ⟨⟨_, rfl, fun hx => ?_, ?_, rfl, changesOnly_writeResultFlag_advance s x _ _⟩,
    ⟨_, rfl, fun hx => ?_, ?_, rfl, changesOnly_writeResultFlag_advance s x _ _⟩⟩
  · rw [State.getV_advance, getV_writeResultFlag_dest _ _ _ _ hx, toNat_ushiftRight_one, hsource]
  · rw [State.getV_advance, getV_writeResultFlag_VF, toNat_shiftedOutRight, hsource]
  · rw [State.getV_advance, getV_writeResultFlag_dest _ _ _ _ hx, toNat_shiftLeft_one, hsource]
  · rw [State.getV_advance, getV_writeResultFlag_VF, toNat_shiftedOutLeft, hsource]

/-- Settles O30: the effect of RND is `rndWith` of the byte drawn, and the mask clears every bit outside `kk`. -/
theorem rndMasksAFreeDraw : Obligations.RndMasksAFreeDraw := by
  unfold Obligations.RndMasksAFreeDraw
  intro x kk s
  refine ⟨fun r => ⟨getV_rndWith r x kk s, rfl, rfl, changesOnly_rndWith r x kk s⟩, ⟨_, rfl⟩, ⟨_, rfl, fun b hb => ?_⟩⟩
  rw [getV_rndWith, BitVec.getLsbD_and, hb, Bool.and_false]

end Sys2Proof.Proofs
end

section
/-! SUPPORT. The index register and the memory instructions: `I` as a number after each, what a byte stored and a
register loaded hold, and the fault outside the address space (42_index_memory.md R200-R206). -/

namespace Sys2Proof.Proofs

open Sys2Proof.Machine Sys2Proof.Cert

variable {s t : State} {x k : Reg}

/-! ## The values of `I` -/

/-- The product is at most `255 * 5`, so 16 bits hold it (R203). -/
theorem toNat_glyphAddr (b : Byte) : (glyphAddr b).toNat = b.toNat * 5 := by
  unfold glyphAddr zextByte; bv_omega

theorem toNat_add_zextByte (a : Word) (b : Byte) : (a + zextByte b).toNat = (a.toNat + b.toNat) % 65536 := by
  unfold zextByte; bv_omega

/-- Behind the last byte of an access inside the address space `I` is at most 0x1000, so 16 bits hold it (R205). -/
theorem toNat_indexAfter (hin : s.i.toNat + (x.val + 1) ≤ memSize) :
    (indexAfter s x).toNat = if s.cfg.lsCompat then s.i.toNat else s.i.toNat + x.val + 1 := by
  have hsize : memSize = 0x1000 := rfl
  unfold indexAfter
  split
  · rfl
  · rw [BitVec.toNat_add, BitVec.toNat_ofNat]
    omega

theorem changesOnly_setI_advance (s : State) (a : Word) : ChangesOnly [.i, .pc] s { s with i := a }.advance :=
  ((Keeps.refl s).setI a).advance.changesOnly

/-! ## Bytes stored and registers loaded -/

/-- LD B inside the address space leaves the `n`-th digit in the byte at `I + n` (R204). -/
theorem byteAt_of_exec_ldB (hwf : Memory.wf s.cfg.font s.mem) (hin : s.i.toNat + 3 ≤ memSize)
    (h : exec (.ldB x) s = .next t) (n : Nat) (hn : n < (bcdDigits (s.getV x)).length) :
    t.byteAt (effAddr s n) = (bcdDigits (s.getV x))[n] := by
  obtain rfl := Host.Outcome.next.inj (h.symm.trans (execLdB_inside x s hin))
  exact memLookup_copyImage_inside _ s.mem hwf.1 s.i.toNat n hn

/-- A store inside the address space leaves `Vk` in the byte at `I + k` (R205). -/
theorem byteAt_of_exec_ldMemVx (hwf : Memory.wf s.cfg.font s.mem) (hin : s.i.toNat + (x.val + 1) ≤ memSize)
    (h : exec (.ldMemVx x) s = .next t) (hk : k ≤ x) : t.byteAt (effAddr s k.val) = s.getV k := by
  have hlen : k.val < (regRange s x).length := by
    rw [regRange_length]
    exact Nat.lt_succ_of_le hk
  obtain rfl := Host.Outcome.next.inj (h.symm.trans (execLdMemVx_inside x s hin))
  exact (memLookup_copyImage_inside _ s.mem hwf.1 s.i.toNat k.val hlen).trans (regRange_getElem s x k.val hlen)

/-- A load inside the address space leaves the byte at `I + k` in `Vk` (R206). -/
theorem getV_of_exec_ldVxMem (hin : s.i.toNat + (x.val + 1) ≤ memSize) (h : exec (.ldVxMem x) s = .next t)
    (hk : k ≤ x) : t.getV k = s.byteAt (effAddr s k.val) := by
  have hrange : k.val < x.val + 1 := Nat.lt_succ_of_le hk
  obtain rfl := Host.Outcome.next.inj (h.symm.trans (execLdVxMem_inside x s hin))
  exact (getV_loadRegs _ s 0 k).trans (by simp [hrange, effAddr])

/-- A store that leaves FS None did not raise MemoryOutOfRange, so all its bytes exist (R205). -/
theorem inside_of_ldMemVx_no_fault (h : exec (.ldMemVx x) s = .next t) (hfs : t.fs = none) :
    s.i.toNat + (x.val + 1) ≤ memSize := by
  obtain ⟨f, rfl⟩ | ⟨hin, -⟩ := execLdMemVx_cases h
  · cases hfs
  · exact hin

/-! ## The frames -/

theorem changesOnly_mono {written more : List Part} (h : ChangesOnly written s t) (hsub : written ⊆ more) :
    ChangesOnly more s t :=
  fun p hp => h p fun hin => hp (hsub hin)

theorem mayWrite_ldMemVx_subset (s : State) (x : Reg) :
    mayWrite s (.ldMemVx x) ⊆ .i :: .pc :: storedBytes s (x.val + 1) := by
  cases hls : s.cfg.lsCompat <;> simp [mayWrite, hls]

theorem mayWrite_ldVxMem_subset (s : State) (x : Reg) :
    mayWrite s (.ldVxMem x) ⊆ .i :: .pc :: ((List.finRange 16).filter (fun z => z ≤ x)).map Part.v := by
  cases hls : s.cfg.lsCompat <;> simp [mayWrite, hls]

/-! ## The statements -/

/-- Settles O36: inside the address space the digits are copied to `I` up, and outside nothing is written. -/
theorem bcdDigitsAreStored : Obligations.BcdDigitsAreStored := by
  unfold Obligations.BcdDigitsAreStored
  intro x s
  refine ⟨fun hwf hi => ?_, fun hi => ?_⟩
  · have hin : s.i.toNat + 3 ≤ memSize := by simp only [memSize]; omega
    have hexec : exec (.ldB x) s = _ := execLdB_inside x s hin
    have hbyte := (s.getV x).isLt
    have hdigit := fun n hn => congrArg BitVec.toNat (byteAt_of_exec_ldB hwf hin hexec n hn)
    refine ⟨_, hexec, (hdigit 0 (by decide : 0 < 3)).trans ?_, (hdigit 1 (by decide : 1 < 3)).trans ?_,
      (hdigit 2 (by decide : 2 < 3)).trans ?_, rfl, changesOnly_of_exec hexec rfl⟩
    · exact Nat.mod_eq_of_lt (show (s.getV x).toNat / 100 < 256 by omega)
    · exact Nat.mod_eq_of_lt (show (s.getV x).toNat / 10 % 10 < 256 by omega)
    · exact Nat.mod_eq_of_lt (show (s.getV x).toNat % 10 < 256 by omega)
  · exact execLdB_outside x s (by simp only [memSize]; omega)

/-- Settles O37: inside the address space `V0` to `Vx` are copied to `I` up, and outside nothing is written. -/
theorem registersAreStored : Obligations.RegistersAreStored := by
  unfold Obligations.RegistersAreStored
  intro x s
  refine ⟨fun hwf hi => ?_, fun hi => ?_⟩
  · have hin : s.i.toNat + (x.val + 1) ≤ memSize := by simp only [memSize]; omega
    have hexec : exec (.ldMemVx x) s = _ := execLdMemVx_inside x s hin
    have hframe := changesOnly_of_exec hexec rfl
    exact ⟨_, hexec, fun k hk => byteAt_of_exec_ldMemVx hwf hin hexec hk, toNat_indexAfter hin, rfl,
      changesOnly_mono hframe (mayWrite_ldMemVx_subset s x)⟩
  · exact execLdMemVx_outside x s (by simp only [memSize]; omega)

/-- Settles O38: inside the address space the bytes from `I` up are copied to `V0` to `Vx`, and outside no register
changes. -/
theorem registersAreLoaded : Obligations.RegistersAreLoaded := by
  unfold Obligations.RegistersAreLoaded
  intro x s
  refine ⟨fun hi => ?_, fun hi => ?_⟩
  · have hin : s.i.toNat + (x.val + 1) ≤ memSize := by simp only [memSize]; omega
    have hexec : exec (.ldVxMem x) s = _ := execLdVxMem_inside x s hin
    have hframe := changesOnly_of_exec hexec (by simp)
    exact ⟨_, hexec, fun k hk => getV_of_exec_ldVxMem hin hexec hk, toNat_indexAfter hin, by simp,
      changesOnly_mono hframe (mayWrite_ldVxMem_subset s x)⟩
  · exact execLdVxMem_outside x s (by simp only [memSize]; omega)

/-- Settles O39: the store raised no fault, so all its bytes exist; the load reads the same addresses, and finds each
register's byte there. -/
theorem storeThenLoadRestoresRegisters : Obligations.StoreThenLoadRestoresRegisters := by
  unfold Obligations.StoreThenLoadRestoresRegisters
  intro x s t u w hwf hstore hfs hmem hi hload
  have hin : s.i.toNat + (x.val + 1) ≤ memSize := inside_of_ldMemVx_no_fault hstore hfs
  have hinLoad : u.i.toNat + (x.val + 1) ≤ memSize := by rwa [hi]
  refine ⟨?_, fun k hk => ?_⟩
  · obtain rfl := Host.Outcome.next.inj (hload.symm.trans (execLdVxMem_inside x u hinLoad))
    simp
  · calc w.getV k = u.byteAt (effAddr u k.val) := getV_of_exec_ldVxMem hinLoad hload hk
      _ = t.byteAt (effAddr s k.val) := by rw [hmem, effAddr, hi, effAddr]
      _ = s.getV k := byteAt_of_exec_ldMemVx hwf hin hstore hk

/-- Settles O33: 16 bits hold both `nnn` and the product. -/
theorem indexLoads : Obligations.IndexLoads := by
  unfold Obligations.IndexLoads
  intro s
  refine ⟨fun nnn => ⟨_, rfl, ?_, rfl, changesOnly_setI_advance s _⟩,
    fun x => ⟨_, rfl, ?_, rfl, changesOnly_setI_advance s _⟩⟩
  · exact toNat_zextAddr nnn
  · exact toNat_glyphAddr (s.getV x)

/-- Settles O34: the sum of 16-bit words is the sum of the numbers modulo 65536. -/
theorem addIndexWrapsAt16Bits : Obligations.AddIndexWrapsAt16Bits := by
  unfold Obligations.AddIndexWrapsAt16Bits
  intro x s
  exact ⟨_, rfl, toNat_add_zextByte s.i (s.getV x), rfl, changesOnly_setI_advance s _⟩

end Sys2Proof.Proofs
end

section
/-! SUPPORT. The display: which pixels a sprite lights, what a draw does to each pixel and to VF, and the framebuffer
port as one vector (43_display.md R230-R235). -/

namespace Sys2Proof.Proofs

open Sys2Proof.Machine Sys2Proof.Cert

variable {s t : State} {x y : Reg} {n : Nibble}

/-! ## Reading the sprite (R231) -/

/-- The sprite rows that `DRW` with `n` rows reads, top to bottom (R231). -/
def spriteRows (s : State) (n : Nibble) : List Byte := (List.range n.toNat).map fun k => s.byteAt (effAddr s k)

theorem spriteRows_length (s : State) (n : Nibble) : (spriteRows s n).length = n.toNat := by
  simp [spriteRows]

theorem spriteRows_getElem (s : State) (n : Nibble) (k : Nat) (h : k < (spriteRows s n).length) :
    (spriteRows s n)[k] = s.byteAt (effAddr s k) := by
  simp [spriteRows]

/-- All rows of the sprite lie in the address space, or there are none (R231). -/
abbrev SpriteInside (s : State) (n : Nibble) : Prop := n.toNat = 0 ∨ s.i.toNat + n.toNat ≤ memSize

theorem exec_drw_inside (hin : SpriteInside s n) :
    exec (.drw x y n) s = .next (drawSprite x y (spriteRows s n) s) := execDrw_inside x y n s hin

theorem exec_drw_outside (hout : ¬ SpriteInside s n) :
    exec (.drw x y n) s = raiseFault (.memoryOutOfRange s.pc (max s.i.toNat memSize)) s := execDrw_outside x y n s hout

/-- The range in the words of R231's exception. -/
theorem spriteInside_iff (s : State) (n : Nibble) :
    SpriteInside s n ↔ (n = 0 ∨ s.i.toNat + n.toNat - 1 < 0x1000) := by
  have hzero : n = 0 ↔ n.toNat = 0 := BitVec.toNat_inj.symm
  have hsize : memSize = 0x1000 := rfl
  rw [SpriteInside, hzero, hsize]
  omega

/-- A draw that leaves FS None did not raise MemoryOutOfRange, so all its rows exist (R231). -/
theorem spriteInside_of_no_fault (h : exec (.drw x y n) s = .next t) (hfs : t.fs = none) : SpriteInside s n := by
  by_contra hout
  obtain rfl := Host.Outcome.next.inj (h.symm.trans (exec_drw_outside hout))
  cases hfs

/-! ## The dots of the sprite (R232, R233) -/

/-- The dots DRW draws. -/
abbrev spriteDots (s : State) (x y : Reg) (n : Nibble) : List Dot :=
  dots (s.getV x) (s.getV y) 0 (spriteRows s n)

theorem spriteDots_apart (s : State) (x y : Reg) (n : Nibble) : DotsApart (spriteDots s x y n) := by
  refine dots_apart _ _ _ 0 ?_
  have hn := n.isLt
  rw [spriteRows_length]
  omega

/-- A pixel lies under a set sprite bit exactly when a set dot lies on it. -/
theorem spriteAt_iff (s : State) (x y : Reg) (n : Nibble) (r : Fin 32) (c : Fin 64) :
    spriteAt s x y n.toNat r c = true ↔ (r, c, true) ∈ spriteDots s x y n := by
  simp only [spriteAt, List.any_eq_true, List.mem_range, Bool.and_eq_true, beq_iff_eq, mem_dots, Prod.mk.injEq,
    spriteRows_getElem, spriteRows_length, Nat.zero_add]
  constructor
  · rintro ⟨k, hk, j, hj, ⟨hr, hc⟩, hb⟩
    exact ⟨k, hk, j, hj, hr.symm, hc.symm, hb.symm⟩
  · rintro ⟨k, hk, j, hj, hr, hc, hb⟩
    exact ⟨k, hk, j, hj, ⟨hr.symm, hc.symm⟩, hb.symm⟩

theorem any_dot_on_eq_spriteAt (s : State) (x y : Reg) (n : Nibble) (r : Fin 32) (c : Fin 64) :
    (spriteDots s x y n).any (fun d => d.1 == r && d.2.1 == c && d.2.2) = spriteAt s x y n.toNat r c := by
  rw [Bool.eq_iff_iff, spriteAt_iff, List.any_eq_true]
  simp only [Bool.and_eq_true, beq_iff_eq]
  constructor
  · rintro ⟨⟨_, _, _⟩, hd, ⟨rfl, rfl⟩, rfl⟩
    exact hd
  · exact fun hd => ⟨_, hd, ⟨rfl, rfl⟩, rfl⟩

theorem any_dot_hits_iff (s : State) (x y : Reg) (n : Nibble) (fb : Frame) :
    (spriteDots s x y n).any (fun d => d.2.2 && pixel fb d.1 d.2.1) = true ↔
      ∃ r c, spriteAt s x y n.toNat r c = true ∧ pixel fb r c = true := by
  simp only [spriteAt_iff, List.any_eq_true, Bool.and_eq_true]
  constructor
  · rintro ⟨⟨r, c, _⟩, hd, rfl, hp⟩
    exact ⟨r, c, hd, hp⟩
  · rintro ⟨r, c, hd, hp⟩
    exact ⟨_, hd, rfl, hp⟩

/-! ## What a draw leaves -/

/-- A draw XORs each pixel with the sprite bit that lands on it (R231). -/
theorem pixel_of_exec_drw (hin : SpriteInside s n) (h : exec (.drw x y n) s = .next t)
    (r : Fin 32) (c : Fin 64) : pixel t.fb r c = (pixel s.fb r c ^^ spriteAt s x y n.toNat r c) := by
  obtain rfl := Host.Outcome.next.inj (h.symm.trans (exec_drw_inside hin))
  rw [drawSprite_fb, drawRows_eq_foldl, pixel_foldl_dots _ (spriteDots_apart s x y n), any_dot_on_eq_spriteAt]

/-- VF after a draw says whether some pixel went from set to unset (R234). -/
theorem getV_VF_of_exec_drw (hin : SpriteInside s n)
    (h : exec (.drw x y n) s = .next t) :
    t.getV regVF = if ∃ r c, pixel s.fb r c = true ∧ pixel t.fb r c = false then 1 else 0 := by
  have hoff : (∃ r c, spriteAt s x y n.toNat r c = true ∧ pixel s.fb r c = true) ↔
      ∃ r c, pixel s.fb r c = true ∧ pixel t.fb r c = false := by
    refine exists_congr fun r => exists_congr fun c => ?_
    rw [pixel_of_exec_drw hin h]
    cases pixel s.fb r c <;> simp
  obtain rfl := Host.Outcome.next.inj (h.symm.trans (exec_drw_inside hin))
  rw [getV_drawSprite_VF, drawRows_eq_foldl, hit_foldl_dots _ (spriteDots_apart s x y n), Bool.false_or,
    collisionFlag, flagByte]
  exact if_congr ((any_dot_hits_iff s x y n s.fb).trans hoff) rfl rfl

theorem getV_VF_eq_one_iff_of_exec_drw (hin : SpriteInside s n)
    (h : exec (.drw x y n) s = .next t) :
    t.getV regVF = 1 ↔ ∃ r c, pixel s.fb r c = true ∧ pixel t.fb r c = false := by
  rw [getV_VF_of_exec_drw hin h, ite_eq_left_iff]
  have hne : (0 : Byte) ≠ 1 := by decide
  simp only [hne, imp_false, not_not]

/-- The sprite that lands on a pixel depends only on its bytes, `I` and the coordinates. -/
theorem spriteAt_congr {u : State} {x' y' : Reg} (hi : u.i = s.i) (hx : u.getV x' = s.getV x)
    (hy : u.getV y' = s.getV y) (hmem : ∀ a, u.byteAt a = s.byteAt a) :
    spriteAt u x' y' = spriteAt s x y := by
  funext n r c
  simp only [spriteAt, effAddr, hi, hx, hy, hmem]

/-! ## The framebuffer port (R235) -/

theorem framebufferBits_eq_flatten (s : State) : framebufferBits s = s.fb.flatten.toList := by
  simp only [framebufferBits, List.flatMap_def, Vector.flatten, Vector.toList, Array.toList_flatten, Array.toList_map,
    List.map_map, Function.comp_def]

/-! ## The statements -/

/-- Settles O43: inside the address space the dots of the sprite lie apart, so each pixel is XORed at most once, and
outside nothing is drawn. -/
theorem drawXorsTheSprite : Obligations.DrawXorsTheSprite := by
  unfold Obligations.DrawXorsTheSprite
  intro x y n s
  refine ⟨fun hrows => ?_, fun hn hi => ?_⟩
  · have hin := (spriteInside_iff s n).mpr hrows
    have hexec : exec (.drw x y n) s = _ := exec_drw_inside hin
    have hvf := getV_VF_of_exec_drw hin hexec
    refine ⟨_, hexec, pixel_of_exec_drw hin hexec, fun hoff => hvf.trans (if_pos hoff),
      fun hkept => hvf.trans (if_neg ?_), rfl, changesOnly_of_exec hexec rfl⟩
    rintro ⟨r, c, hset, hunset⟩
    exact Bool.false_ne_true (hunset.symm.trans (hkept r c hset))
  · refine exec_drw_outside ?_
    rw [spriteInside_iff, not_or]
    exact ⟨hn, Nat.not_lt.mpr hi⟩

/-- Settles O44: the second draw XORs every pixel with the same sprite bit, so the two cancel; it turns a pixel off
exactly where the first one turned it on. -/
theorem drawTwiceRestoresTheFrame : Obligations.DrawTwiceRestoresTheFrame := by
  unfold Obligations.DrawTwiceRestoresTheFrame
  intro x y x' y' n s t u w hfirst hfs hfb hi hx hy hmem hsecond
  have hin := spriteInside_of_no_fault hfirst hfs
  have hinSecond : SpriteInside u n := by rwa [SpriteInside, hi]
  have hdrawn : ∀ r c, pixel u.fb r c = (pixel s.fb r c ^^ spriteAt s x y n.toNat r c) := by
    rw [hfb]
    exact pixel_of_exec_drw hin hfirst
  have hrestored : w.fb = s.fb := by
    refine frame_ext w.fb s.fb fun r c => ?_
    rw [pixel_of_exec_drw hinSecond hsecond, spriteAt_congr hi hx hy hmem, hdrawn, Bool.xor_assoc, Bool.xor_self,
      Bool.xor_false]
  refine ⟨hrestored, (getV_VF_eq_one_iff_of_exec_drw hinSecond hsecond).trans ?_⟩
  refine exists_congr fun r => exists_congr fun c => ?_
  rw [hrestored]
  refine and_congr_left fun hunset => ?_
  rw [hdrawn, hunset, Bool.false_xor]

/-- Settles O45: the port flattens the rows, each of 64 pixels, into one vector. -/
theorem framebufferPortIsRowMajor : Obligations.FramebufferPortIsRowMajor := by
  unfold Obligations.FramebufferPortIsRowMajor
  intro s
  rw [framebufferBits_eq_flatten]
  refine ⟨Vector.length_toList, fun r c => ?_⟩
  have hlt : 64 * r.val + c.val < 32 * 64 := by omega
  have hrow : (64 * r.val + c.val) / 64 = r.val := by omega
  have hcol : (64 * r.val + c.val) % 64 = c.val := by omega
  rw [Vector.getElem?_toList, Vector.getElem?_eq_getElem hlt, Vector.getElem_flatten]
  simp only [hrow, hcol]
  rfl

/-- Settles O42: the frame CLS writes has every pixel unset. -/
theorem clsClearsEveryPixel : Obligations.ClsClearsEveryPixel := by
  unfold Obligations.ClsClearsEveryPixel
  intro s
  exact ⟨_, rfl, pixel_clearFrame, rfl, ((Keeps.refl s).setFb clearFrame).advance.changesOnly⟩

end Sys2Proof.Proofs
end

section
/-! SUPPORT. Key input, the key-wait and the timers: what each key test and each state of the key-wait answers, and the
saturating decrement as a number (44_input_timers.md R250-R260). -/

namespace Sys2Proof.Proofs

open Sys2Proof.Machine Sys2Proof.Cert

variable {s t : State} {x d : Reg} {k : Fin 16}

/-! ## Key numbers -/

/-- A key number is below 16, so a byte holds it (R254). -/
@[simp] theorem toNat_keyByte (k : Fin 16) : (keyByte k).toNat = k.val :=
  Nat.mod_eq_of_lt (k.isLt.trans (by decide))

/-- The register of the key-wait reads back the number of the key recorded in it (R255). -/
theorem toNat_getV_setV_keyByte (s : State) (x : Reg) (k : Fin 16) :
    ((s.setV x (keyByte k)).getV x).toNat = k.val := by
  rw [State.getV_setV_same, toNat_keyByte]

theorem keyIndex_of_toNat {b : Byte} (hk : b.toNat = k.val) : keyIndex b = some k := by
  have hlt : b.toNat < 16 := hk ▸ k.isLt
  rw [keyIndex_inside b hlt, Option.some.injEq, Fin.ext_iff]
  exact hk

theorem anyKey_eq_false {keys : Vector Bool 16} (hup : ∀ k : Fin 16, keys[k] = false) : anyKey keys = false := by
  refine eq_false_of_ne_true fun hany => ?_
  obtain ⟨k, hk⟩ := (anyKey_iff keys).mp hany
  exact Bool.false_ne_true ((hup k).symm.trans hk)

/-! ## SKP and SKNP -/

theorem exec_skp_inside (hk : (s.getV x).toNat = k.val) : exec (.skp x) s = .next (s.skipIf s.keys[k]) := by
  simp only [exec, execSkp, keyIndex_of_toNat hk]

theorem exec_sknp_inside (hk : (s.getV x).toNat = k.val) : exec (.sknp x) s = .next (s.skipIf (!s.keys[k])) := by
  simp only [exec, execSknp, keyIndex_of_toNat hk]

theorem exec_skp_outside (hx : ¬ (s.getV x).toNat < 16) :
    exec (.skp x) s = raiseFault (.keyIndexOutOfRange s.pc (s.getV x)) s := by
  simp only [exec, execSkp, keyIndex_outside _ hx]

theorem exec_sknp_outside (hx : ¬ (s.getV x).toNat < 16) :
    exec (.sknp x) s = raiseFault (.keyIndexOutOfRange s.pc (s.getV x)) s := by
  simp only [exec, execSknp, keyIndex_outside _ hx]

/-- SKNP: skip when the key is up (R252). -/
theorem skipIf_not_pc (s : State) (c : Bool) : (s.skipIf (!c)).pc = if c = true then s.pc + 2 else s.pc + 4 := by
  cases c
  · rfl
  · rfl

/-! ## LD Vx,K in each state of the key-wait -/

theorem exec_ldVxK_idle_up (hkw : s.kw = .idle) (hup : ∀ k : Fin 16, s.keys[k] = false) :
    exec (.ldVxK x) s = .next s := by
  simp only [exec, execLdVxK, hkw, (lowestKey_eq_none s.keys).mpr hup]
  rfl

theorem exec_ldVxK_idle_down (hkw : s.kw = .idle) (hk : s.keys[k] = true)
    (hlow : ∀ j : Fin 16, j < k → s.keys[j] = false) :
    exec (.ldVxK x) s = .next { s.setV x (keyByte k) with kw := .waitingForRelease x } := by
  simp only [exec, execLdVxK, hkw, lowestKey_eq_some s.keys k hk hlow]
  rfl

theorem exec_ldVxK_waiting_down (hkw : s.kw = .waitingForRelease d) (hdown : ∃ k : Fin 16, s.keys[k] = true) :
    exec (.ldVxK x) s = .next s := by
  simp only [exec, execLdVxK, hkw, (anyKey_iff s.keys).mpr hdown]
  rfl

theorem exec_ldVxK_waiting_up (hkw : s.kw = .waitingForRelease d) (hup : ∀ k : Fin 16, s.keys[k] = false) :
    exec (.ldVxK x) s = .next { s with kw := .idle }.advance := by
  simp only [exec, execLdVxK, hkw, anyKey_eq_false hup]
  rfl

/-! ## A whole wait -/

theorem waitThrough_cons {keys : Vector Bool 16} (rest : List (Vector Bool 16))
    (h : exec (.ldVxK x) { s with keys := keys } = .next t) :
    waitThrough x (keys :: rest) s = waitThrough x rest t := by
  simp only [waitThrough, h]

/-- Steps of LD Vx,K while it waits, some key held at each, leave every part but the key latch alone (R256). -/
theorem waitThrough_held (held : List (Vector Bool 16)) (hkw : s.kw = .waitingForRelease d)
    (hheld : ∀ keys ∈ held, ∃ j : Fin 16, keys[j] = true) :
    ∃ keys, waitThrough x held s = .next { s with keys := keys } := by
  induction held generalizing s with
  | nil => exact ⟨s.keys, rfl⟩
  | cons keys rest ih =>
    obtain ⟨hfirst, hrest⟩ := List.forall_mem_cons.mp hheld
    have hstay : exec (.ldVxK x) { s with keys := keys } = .next { s with keys := keys } :=
      exec_ldVxK_waiting_down hkw hfirst
    rw [waitThrough_cons rest hstay]
    exact ih (s := { s with keys := keys }) hkw hrest

theorem Keeps.setKeys {written : List Part} (h : Keeps written s t) (keys : Vector Bool 16) :
    Keeps (written ++ [.keys]) s { t with keys := keys } :=
  h.write .keys

/-- A part written and brought back to its value is not in the frame. -/
theorem changesOnly_of_restored {p : Part} {written : List Part} (h : ChangesOnly (p :: written) s t)
    (hp : Unchanged p s t) : ChangesOnly written s t := by
  intro q hq
  by_cases hqp : q = p
  · rw [hqp]
    exact hp
  · exact h q (List.not_mem_cons_of_ne_of_not_mem hqp hq)

/-! ## The tick -/

theorem tick_of_unfaulted (hfs : s.fs = none) : tick s = { s with dt := decTimer s.dt, st := decTimer s.st } := by
  simp only [tick, hfs]

theorem tick_of_faulted (hfs : s.fs ≠ none) : tick s = s := by
  obtain ⟨f, hf⟩ := Option.ne_none_iff_exists'.mp hfs
  simp only [tick, hf]

/-- The decrement saturates as subtraction of natural numbers does (R259, R260). -/
theorem toNat_decTimer (b : Byte) : (decTimer b).toNat = b.toNat - 1 := by
  unfold decTimer
  split
  · next hzero => rw [hzero]; rfl
  · bv_omega

/-! ## The statements -/

/-- Settles O49: the press latches `k`, every held step leaves the state but for the key latch, and the release only
brings KW back to Idle and advances. -/
theorem keyWaitCompletesAfterPressAndRelease : Obligations.KeyWaitCompletesAfterPressAndRelease := by
  unfold Obligations.KeyWaitCompletesAfterPressAndRelease
  intro x s t u w k held hkw hk hlow hpress hheld hwait hrelease
  have ht : t = { s.setV x (keyByte k) with kw := .waitingForRelease x } :=
    Host.Outcome.next.inj (hpress.symm.trans (exec_ldVxK_idle_down hkw hk hlow))
  have hlatched : t.kw = .waitingForRelease x := by rw [ht]
  have hpressed : Keeps [.v x, .kw] s t := ht ▸ ((Keeps.refl s).setV x (keyByte k)).setKw (.waitingForRelease x)
  obtain ⟨keys, hthrough⟩ := waitThrough_held (x := x) held hlatched hheld
  obtain rfl := Host.Outcome.next.inj (hwait.symm.trans hthrough)
  obtain rfl := Host.Outcome.next.inj (hrelease.symm.trans (exec_ldVxK_waiting_up hlatched (by simp)))
  have hframe := ((hpressed.setKeys (Vector.replicate 16 false)).setKw .idle).advance
  refine ⟨?_, rfl, ?_, changesOnly_of_restored (p := .kw) (hframe.mono (by simp)).changesOnly hkw.symm⟩
  · rw [ht]
    rfl
  · rw [ht]
    exact toNat_getV_setV_keyByte s x k

/-- Settles O46: below 16 `V[x]` names a key, and both skip by it; at 16 and above it names none. -/
theorem keyTestsSkip : Obligations.KeyTestsSkip := by
  unfold Obligations.KeyTestsSkip
  intro x s
  refine ⟨fun k hk => ⟨?_, ?_⟩, fun hx => ⟨?_, ?_⟩⟩
  · exact ⟨_, exec_skp_inside hk, State.skipIf_pc s _, changesOnly_skipIf s _⟩
  · exact ⟨_, exec_sknp_inside hk, skipIf_not_pc s _, changesOnly_skipIf s _⟩
  · exact exec_skp_outside (Nat.not_lt.mpr hx)
  · exact exec_sknp_outside (Nat.not_lt.mpr hx)

/-- Settles O47: each is one write and `advance`, and the destination reads back the source. -/
theorem timerMoves : Obligations.TimerMoves := by
  unfold Obligations.TimerMoves
  intro x s
  refine ⟨⟨_, rfl, ?_, rfl, changesOnly_setV_advance s x s.dt⟩, ⟨_, rfl, rfl, rfl, ?_⟩, ⟨_, rfl, rfl, rfl, ?_⟩⟩
  · exact State.getV_setV_same s x s.dt
  · exact ((Keeps.refl s).setDt (s.getV x)).advance.changesOnly
  · exact ((Keeps.refl s).setSt (s.getV x)).advance.changesOnly

/-- Settles O48: one case of `execLdVxK` for each clause. -/
theorem keyWaitLatchesThenCompletes : Obligations.KeyWaitLatchesThenCompletes := by
  unfold Obligations.KeyWaitLatchesThenCompletes
  intro x s
  refine ⟨exec_ldVxK_idle_up, fun hkw k hk hlow => ?_, fun _ => exec_ldVxK_waiting_down, fun _ hkw hup => ?_⟩
  · have hframe := ((Keeps.refl s).setV x (keyByte k)).setKw (.waitingForRelease x)
    exact ⟨_, exec_ldVxK_idle_down hkw hk hlow, toNat_getV_setV_keyByte s x k, rfl, rfl, hframe.changesOnly⟩
  · exact ⟨_, exec_ldVxK_waiting_up hkw hup, rfl, rfl, ((Keeps.refl s).setKw .idle).advance.changesOnly⟩

/-- Settles O50: an unfaulted tick decrements both timers, a faulted one is the identity. -/
theorem tickDecrementsAndSaturates : Obligations.TickDecrementsAndSaturates := by
  unfold Obligations.TickDecrementsAndSaturates
  intro s
  refine ⟨fun hfs => ?_, tick_of_faulted⟩
  have hframe := ((Keeps.refl s).setDt (decTimer s.dt)).setSt (decTimer s.st)
  rw [tick_of_unfaulted hfs]
  exact ⟨toNat_decTimer s.dt, toNat_decTimer s.st, hframe.changesOnly⟩

end Sys2Proof.Proofs
end

section
/-! SUPPORT. Faults: every instruction and every step of an unfaulted core raises the fault that R301's table gives it,
or answers a state whose FS is as it was; and a core whose FS holds a fault stays as it is
(60_exceptions.md R301-R306, R317). -/

namespace Sys2Proof.Proofs

open Sys2Proof.Machine Sys2Proof.Cert

variable {s t : State} {fault : Option Fault} {r : Result}

/-! ## Answers by the fault table -/

/-- An answer from `s` by the fault table: where the table gives a fault, that fault written to FS and nothing else
(R302, R303); where it gives none, a state with FS as it was. -/
inductive Answers (s : State) : Option Fault → Result → Prop where
  | raises (f : Fault) : Answers s (some f) (.next { s with fs := some f })
  | completes (t : State) (hfs : t.fs = s.fs) : Answers s none (.next t)

theorem Answers.exists_next (h : Answers s fault r) : ∃ t, r = .next t ∧ t.fs = fault.or s.fs := by
  cases h with
  | raises f => exact ⟨_, rfl, rfl⟩
  | completes t hfs => exact ⟨t, rfl, hfs⟩

/-- An answer that changes FS is the raising of a fault (R303). -/
theorem Answers.eq_of_fs_ne (h : Answers s fault (.next t)) (hne : t.fs ≠ s.fs) : t = { s with fs := t.fs } := by
  cases h with
  | raises f => rfl
  | completes _ hfs => exact absurd hfs hne

theorem answers_of_raiseFault {f : Fault} (h : r = raiseFault f s) : Answers s (some f) r := by
  subst h
  exact .raises f

theorem answers_of_next (h : r = .next t) (hfs : t.fs = s.fs) : Answers s none r := by
  subst h
  exact .completes t hfs

/-! ## Ranges of addresses (R72, R80, R200) -/

theorem rangeFault_inside {a n : Nat} (hin : n = 0 ∨ a + n ≤ memSize) : rangeFault a n = none := by
  refine if_neg ?_
  simp only [memSize] at hin
  omega

theorem rangeFault_outside {a n : Nat} (hout : ¬ (n = 0 ∨ a + n ≤ memSize)) :
    rangeFault a n = some (max a memSize) := by
  refine if_pos ?_
  simp only [memSize] at hout
  omega

/-- An instruction that touches the `n` bytes from `a` up completes when they all exist, and else raises
MemoryOutOfRange at the lowest that does not. -/
theorem answers_of_range {a n : Nat} (hin : n = 0 ∨ a + n ≤ memSize → r = .next t)
    (hout : ¬ (n = 0 ∨ a + n ≤ memSize) → r = raiseFault (.memoryOutOfRange s.pc (max a memSize)) s)
    (hfs : t.fs = s.fs) :
    Answers s ((rangeFault a n).map fun b => .memoryOutOfRange s.pc b) r := by
  by_cases hrange : n = 0 ∨ a + n ≤ memSize
  · rw [rangeFault_inside hrange]
    exact answers_of_next (hin hrange) hfs
  · rw [rangeFault_outside hrange]
    exact answers_of_raiseFault (hout hrange)

/-! ## The instructions with another fault than MemoryOutOfRange -/

theorem ret_answers (s : State) : Answers s (instrFault s .ret) (exec .ret s) := by
  cases hstack : s.stack with
  | nil =>
    rw [instrFault, if_pos hstack]
    exact answers_of_raiseFault (exec_ret_nil hstack)
  | cons a rest =>
    rw [instrFault, if_neg (by simp [hstack])]
    exact answers_of_next (exec_ret_cons hstack) rfl

theorem instrFault_call (s : State) (nnn : Addr12) :
    instrFault s (.call nnn) =
      if stackFull s.cfg.stackDepth s.stack.length = true then some (.stackOverflow s.pc) else none := by
  cases hdepth : s.cfg.stackDepth <;> simp [instrFault, stackFull, hdepth]

theorem call_answers (s : State) (nnn : Addr12) : Answers s (instrFault s (.call nnn)) (exec (.call nnn) s) := by
  rw [instrFault_call]
  cases hfull : stackFull s.cfg.stackDepth s.stack.length with
  | true => exact answers_of_raiseFault (exec_call_full hfull)
  | false => exact answers_of_next (exec_call_room hfull) rfl

/-- A key test completes when `V[x]` names a key, and else raises KeyIndexOutOfRange (R250). -/
theorem answers_of_keyIndex {b : Byte} (hin : ∀ k : Fin 16, b.toNat = k.val → ∃ c, r = .next (s.skipIf c))
    (hout : ¬ b.toNat < 16 → r = raiseFault (.keyIndexOutOfRange s.pc b) s) :
    Answers s (if b.toNat ≥ 16 then some (.keyIndexOutOfRange s.pc b) else none) r := by
  by_cases hb : b.toNat < 16
  · obtain ⟨c, hc⟩ := hin ⟨b.toNat, hb⟩ rfl
    rw [if_neg (Nat.not_le.mpr hb)]
    exact answers_of_next hc (State.skipIf_fs s c)
  · rw [if_pos (Nat.not_lt.mp hb)]
    exact answers_of_raiseFault (hout hb)

/-- LD Vx,K completes in every state of the key-wait (R254-R256). -/
theorem ldVxK_answers (s : State) (x : Reg) : Answers s none (exec (.ldVxK x) s) := by
  show Answers s none (execLdVxK x s)
  unfold execLdVxK
  split
  all_goals
    split
    all_goals exact .completes _ rfl

/-! ## Every instruction and every step -/

/-- EVERY INSTRUCTION ANSWERS BY ITS RULE of R301's table. -/
theorem exec_answers (i : Instr) (s : State) : Answers s (instrFault s i) (exec i s) := by
  cases i
  case ret => exact ret_answers s
  case call nnn => exact call_answers s nnn
  case drw x y n => exact answers_of_range (execDrw_inside x y n s) (execDrw_outside x y n s) rfl
  case ldB x =>
    exact answers_of_range (fun hin => execLdB_inside x s (by omega)) (fun hout => execLdB_outside x s (by omega)) rfl
  case ldMemVx x =>
    exact answers_of_range (fun hin => execLdMemVx_inside x s (by omega))
      (fun hout => execLdMemVx_outside x s (by omega)) rfl
  case ldVxMem x =>
    exact answers_of_range (fun hin => execLdVxMem_inside x s (by omega))
      (fun hout => execLdVxMem_outside x s (by omega)) (by simp)
  case skp => exact answers_of_keyIndex (fun _ hk => ⟨_, exec_skp_inside hk⟩) exec_skp_outside
  case sknp => exact answers_of_keyIndex (fun _ hk => ⟨_, exec_sknp_inside hk⟩) exec_sknp_outside
  case ldVxK x => exact ldVxK_answers s x
  case seImm | sneImm | seReg | sneReg => exact .completes _ (State.skipIf_fs s _)
  all_goals exact .completes _ rfl

theorem step_of_fetch_error {a : Nat} (hfs : s.fs = none) (h : fetch s = .error a) :
    step s = raiseFault (.memoryOutOfRange s.pc a) s := by
  simp only [step, hfs, h]

theorem step_of_dispatch_error {w : Word} {e : DecodeError} (hfs : s.fs = none) (hfetch : fetch s = .ok w)
    (h : dispatch s.cfg.strictLowNibble w = .error e) : step s = raiseFault (.unimplementedInstruction s.pc w) s := by
  simp only [step, hfs, hfetch, h]

/-- EVERY STEP OF AN UNFAULTED CORE ANSWERS BY R301's TABLE, in R304's order: fetch, dispatch, instruction. -/
theorem step_answers (hfs : s.fs = none) : Answers s (stepFault s) (step s) := by
  unfold stepFault
  by_cases hin : s.pc.toNat + 1 < memSize
  · rw [rangeFault_inside (.inr hin)]
    have hfetch := fetch_inside s hin
    simp only
    split
    · next e hdispatch => exact answers_of_raiseFault (step_of_dispatch_error hfs hfetch hdispatch)
    · next i hdispatch =>
      rw [step_of_dispatch hfs hfetch hdispatch]
      exact exec_answers i s
  · rw [rangeFault_outside (by omega)]
    exact answers_of_raiseFault (step_of_fetch_error hfs (fetch_outside s hin))

/-- The port gives the state a step answers, and the reply read from its FS (R317). -/
theorem stepPort_of_step (h : step s = .next t) : stepPort s = (t, replyOfStatus t.fs) := by
  simp only [stepPort, h]

/-! ## A faulted core (R302, R306) -/

section FaultedCore

variable {f : Fault}

theorem step_of_faulted (hfs : s.fs = some f) : step s = .fault f := by
  simp only [step, hfs]

theorem stepPort_of_faulted (hfs : s.fs = some f) : stepPort s = (s, .fault f) := by
  simp only [stepPort, step_of_faulted hfs]

theorem tick_of_fs_some (hfs : s.fs = some f) : tick s = s := tick_of_faulted (by simp [hfs])

theorem setKey_of_faulted (hfs : s.fs = some f) (k : Nat) (b : Bool) : setKey k b s = .error .coreFaulted :=
  hostWrite_faulted s _ f hfs

theorem loadImage_of_faulted (hfs : s.fs = some f) (image : List Byte) : loadImage image s = .error .coreFaulted :=
  hostWrite_faulted s _ f hfs

theorem hostOp_of_faulted (hfs : s.fs = some f) (op : HostOp) (ph : Phase) : (hostOp op ⟨s, ph⟩).1 = ⟨s, ph⟩ := by
  obtain hsame | ⟨image, t, -, -, hload, -⟩ | ⟨-, rfl, hstep⟩ | ⟨-, htick⟩ | ⟨k, b, t, -, hkey, -⟩ :=
    hostOp_cases op ⟨s, ph⟩
  · exact hsame
  · cases (loadImage_of_faulted hfs image).symm.trans hload
  · rw [hstep, stepPort_of_faulted hfs]
  · rw [htick, tick_of_fs_some hfs]
  · cases (setKey_of_faulted hfs k b).symm.trans hkey

theorem runOps_of_faulted (hfs : s.fs = some f) (ph : Phase) (ops : List HostOp) : runOps ops ⟨s, ph⟩ = ⟨s, ph⟩ := by
  induction ops with
  | nil => rfl
  | cons op ops ih => rw [runOps, hostOp_of_faulted hfs, ih]

end FaultedCore

/-! ## The statements -/

/-- Settles O12: a step answers by R301's table, and the FS before was None. -/
theorem stepFaultsExactlyByTheFaultTable : Obligations.StepFaultsExactlyByTheFaultTable := by
  unfold Obligations.StepFaultsExactlyByTheFaultTable
  refine ⟨fun s hfs => ?_, fun p w a b => ⟨rfl, rfl, rfl, rfl, rfl⟩⟩
  simpa only [hfs, Option.or_none] using (step_answers hfs).exists_next

/-- Settles O13: an instruction answers by its rule, and the FS before was None. -/
theorem instructionFaultsExactlyByItsRule : Obligations.InstructionFaultsExactlyByItsRule := by
  unfold Obligations.InstructionFaultsExactlyByItsRule
  intro i s hfs
  simpa only [hfs, Option.or_none] using (exec_answers i s).exists_next

/-- Settles O14: an answer that changes FS is the raising of a fault; a step that answers a state had FS None before. -/
theorem faultChangesOnlyTheFaultStatus : Obligations.FaultChangesOnlyTheFaultStatus := by
  unfold Obligations.FaultChangesOnlyTheFaultStatus
  refine ⟨fun i s t h hne => ?_, fun s t h hne => ?_⟩
  · exact (h ▸ exec_answers i s).eq_of_fs_ne hne
  · obtain ⟨hfs, -⟩ := step_cases s t h
    exact (h ▸ step_answers hfs).eq_of_fs_ne (hfs ▸ hne)

/-- Settles O15, by induction over the sequence of host operations: each is refused, or changes nothing. -/
theorem faultIsSticky : Obligations.FaultIsSticky := by
  unfold Obligations.FaultIsSticky
  intro s f hfs
  exact ⟨step_of_faulted hfs, stepPort_of_faulted hfs, tick_of_fs_some hfs, setKey_of_faulted hfs,
    loadImage_of_faulted hfs, runOps_of_faulted hfs⟩

/-- Settles O16: a step of an unfaulted core answers a state, and the port reads its reply from that state. -/
theorem stepPortReportsTheFaultStatus : Obligations.StepPortReportsTheFaultStatus := by
  unfold Obligations.StepPortReportsTheFaultStatus
  intro s hfs
  obtain ⟨t, hstep, -⟩ := (step_answers hfs).exists_next
  exact ⟨t, hstep, stepPort_of_step hstep⟩

end Sys2Proof.Proofs
end

section
/-! SUPPORT. The random port and the key port: who draws a byte, and what a key write does
(60_exceptions.md R312, R316, R319). -/

namespace Sys2Proof.Proofs

open Sys2Proof.Machine Sys2Proof.Cert

variable {s t : State}

/-! ## Draws (R316) -/

theorem draws_mem_mayWrite {i : Instr} (h : Part.draws ∈ mayWrite s i) : ∃ x kk, i = .rnd x kk := by
  cases i
  case rnd x kk => exact ⟨x, kk, rfl⟩
  case ldMemVx | ldVxMem => cases hls : s.cfg.lsCompat <;> simp [mayWrite, storedBytes, hls] at h
  all_goals simp [mayWrite, storedBytes] at h

/-- An instruction other than RND draws nothing, fault or not. -/
theorem exec_draws {i : Instr} (h : exec i s = .next t) (hrnd : ∀ x kk, i ≠ .rnd x kk) : t.draws = s.draws := by
  obtain ⟨f, rfl⟩ | hdone := exec_cases h
  · rfl
  · refine hdone.keeps.changesOnly .draws fun hmem => ?_
    obtain ⟨x, kk, hi⟩ := draws_mem_mayWrite hmem
    exact hrnd x kk hi

theorem exec_rnd_draws {x : Reg} {kk : Byte} (h : exec (.rnd x kk) s = .next t) : t.draws = s.draws + 1 := by
  cases h
  exact rndWith_draws _ x kk s

theorem tick_draws (s : State) : (tick s).draws = s.draws := by
  unfold tick
  split
  · rfl
  · rfl

/-! ## The key port (R312, R319) -/

theorem setKey_inside {k : Nat} (b : Bool) (hfs : s.fs = none) (hk : k < 16) :
    setKey k b s = .ok { s with keys := s.keys.set k b } :=
  (hostWrite_unfaulted s _ hfs).trans (dif_pos hk)

theorem setKey_outside {k : Nat} (b : Bool) (hfs : s.fs = none) (hk : ¬ k < 16) :
    setKey k b s = .error (.keyOutOfDomain k) :=
  (hostWrite_unfaulted s _ hfs).trans (dif_neg hk)

/-! ## The statements -/

/-- Settles O31: the counter is in the frame of RND alone, and no host operation writes it. -/
theorem onlyRndConsumesTheRandomPort : Obligations.OnlyRndConsumesTheRandomPort := by
  unfold Obligations.OnlyRndConsumesTheRandomPort
  refine ⟨fun i s t h => ?_, tick_draws, fun k b s t h => ?_, fun image s t h => ?_⟩
  · split
    · exact exec_rnd_draws h
    · next hrnd => exact exec_draws h hrnd
  · obtain ⟨-, hk, rfl⟩ := setKey_ok k b s t h
    rfl
  · obtain ⟨-, -, rfl⟩ := loadImage_ok image s t h
    rfl

/-- Settles O53: the write is one `set` of K, and an index of 16 or more is outside its domain. -/
theorem setKeyWritesOneKey : Obligations.SetKeyWritesOneKey := by
  unfold Obligations.SetKeyWritesOneKey
  intro k b s hfs
  refine ⟨fun hk => ⟨_, setKey_inside b hfs hk, fun j => ?_, ?_⟩, fun hk => ?_⟩
  · simp only [Fin.getElem_fin, Vector.getElem_set, eq_comm]
  · exact ((Keeps.refl s).setKeys _).changesOnly
  · exact setKey_outside b hfs (Nat.not_lt.mpr hk)

end Sys2Proof.Proofs
end

section
/-! SUPPORT. Construction, the load and the order of the boot (70_reset_and_hazards.md R351, R352, R354;
60_exceptions.md R319). -/

namespace Sys2Proof.Proofs

open Sys2Proof.Machine Sys2Proof.Cert

variable {s : State} {image : List Byte}

/-! ## Construction (R351) -/

/-- Memory lists nothing after construction, so every byte is the reset content (R71). -/
theorem byteAt_construct (cfg : Config) (a : Nat) : (State.construct cfg).byteAt a = resetByte cfg.font a := rfl

/-! ## The load port (R352) -/

theorem loadImage_fitting (hfs : s.fs = none) (hlen : image.length ≤ maxImage) :
    loadImage image s = .ok { s with mem := copyImage s.cfg.font s.mem progBase.toNat image } :=
  (hostWrite_unfaulted s _ hfs).trans (if_pos hlen)

theorem loadImage_tooLong (hfs : s.fs = none) (hlen : ¬ image.length ≤ maxImage) :
    loadImage image s = .error (.imageTooLong image.length) :=
  (hostWrite_unfaulted s _ hfs).trans (if_neg hlen)

/-- Every byte of a memory into which a sequence was copied: the sequence's own inside its range, else as before. -/
theorem memLookup_copyImage {font : Vector Byte 80} {m : Memory} (hwf : Memory.wf font m) (bytes : List Byte)
    (a b : Nat) :
    memLookup font (copyImage font m a bytes) b =
      if h : a ≤ b ∧ b < a + bytes.length then bytes[b - a] else memLookup font m b := by
  split
  · next h =>
    obtain ⟨k, rfl⟩ := Nat.exists_eq_add_of_le h.1
    simpa using memLookup_copyImage_inside bytes m hwf.1 a k (by omega)
  · next h => exact memLookup_copyImage_outside bytes m a b h

/-! ## Refused operations (R319) -/

/-- The step port answers Ok or a fault, never a refusal. -/
theorem stepPort_not_refused (s : State) (r : PortRefusal) : (stepPort s).2 ≠ .refused r := by
  cases hfs : s.fs with
  | some f => simp [stepPort_of_faulted hfs]
  | none =>
    obtain ⟨t, hstep, -⟩ := (step_answers hfs).exists_next
    rw [stepPort_of_step hstep]
    cases t.fs <;> simp [replyOfStatus]

/-- An operation that had its effect was not refused, so a refused one had none. -/
theorem hostOp_refused {op : HostOp} {n m : Instance} {r : PortRefusal} (h : hostOp op n = (m, .refused r)) :
    m = n := by
  obtain hsame | ⟨image, t, rfl, hphase, hload, -⟩ | ⟨rfl, hphase, -⟩ | ⟨rfl, -⟩ | ⟨k, b, t, rfl, hkey, -⟩ :=
    hostOp_cases op n
  · rw [h] at hsame
    exact hsame
  · simp [hostOp, hphase, hload] at h
  · simp [hostOp, hphase, stepPort_not_refused] at h
  · simp [hostOp] at h
  · simp [hostOp, hkey] at h

/-! ## The statements -/

/-- Settles O54: the load copies the image from PROG_BASE on, and a copied sequence is found byte by byte. -/
theorem loadCopiesTheImage : Obligations.LoadCopiesTheImage := by
  unfold Obligations.LoadCopiesTheImage
  intro image s hwf hfs
  refine ⟨fun hlen => ⟨_, loadImage_fitting hfs hlen, fun a => ?_, rfl⟩, fun hlen => ?_⟩
  · exact memLookup_copyImage hwf image 0x200 a
  · exact loadImage_tooLong hfs (Nat.not_le.mpr hlen)

/-- Settles O55: the phase decides on the first step and the second load, and a refused operation had no effect. -/
theorem bootOrderIsChecked : Obligations.BootOrderIsChecked := by
  unfold Obligations.BootOrderIsChecked
  refine ⟨fun s => rfl, fun image s hlen hfs => ?_, fun image s => rfl, fun op n m r h => hostOp_refused h⟩
  have hload := loadImage_fitting hfs hlen
  exact ⟨_, by simp only [hostOp, hload], hload⟩

/-- Settles O57: the registers, pixels and keys are filled with one value, and memory reads as the reset content. -/
theorem constructionGivesTheResetState : Obligations.ConstructionGivesTheResetState := by
  unfold Obligations.ConstructionGivesTheResetState
  intro cfg
  refine ⟨fun x => ?_, rfl, rfl, rfl, rfl, rfl, fun r c => ?_, fun k => ?_, rfl, rfl, rfl, fun a ha => ?_,
    fun a ha => ?_⟩
  · simp [State.construct, State.getV]
  · simp [State.construct, pixel]
  · simp [State.construct]
  · exact (byteAt_construct cfg a).trans (dif_pos ha)
  · exact (byteAt_construct cfg a).trans (dif_neg (Nat.not_lt.mpr ha))

end Sys2Proof.Proofs
end

section
/-! SUPPORT. The compatibility flags: a state under other flags answers as it did, under those flags, for every
instruction that does not read them (70_reset_and_hazards.md R359; 10_state.md R43). -/

namespace Sys2Proof.Proofs

open Sys2Proof.Machine Sys2Proof.Cert

/-- The answer with its state under other compatibility flags. -/
def answerWithCompat (ls sh : Bool) : Result → Result
  | .next t => .next (withCompat ls sh t)
  | .fault f => .fault f
  | .refused r => .refused r

/-- A meaning answers the same under any setting of the compatibility flags. -/
def IgnoresCompat (meaning : State → Result) : Prop :=
  ∀ (ls sh : Bool) (s : State), meaning (withCompat ls sh s) = answerWithCompat ls sh (meaning s)

section Answers

variable {ls sh : Bool} {s u : State} {r r' : Result}

theorem answerWithCompat_of_next (hr : r = .next u) (hr' : r' = .next (withCompat ls sh u)) :
    r' = answerWithCompat ls sh r := by
  rw [hr, hr']
  rfl

theorem withCompat_skipIf (ls sh : Bool) (s : State) (c : Bool) :
    (withCompat ls sh s).skipIf c = withCompat ls sh (s.skipIf c) := by
  cases c
  · rfl
  · rfl

theorem answerWithCompat_of_skipIf {c : Bool} (hr : r = .next (s.skipIf c))
    (hr' : r' = .next ((withCompat ls sh s).skipIf c)) : r' = answerWithCompat ls sh r :=
  answerWithCompat_of_next hr (hr'.trans (congrArg _ (withCompat_skipIf ls sh s c)))

end Answers

/-! ## The instructions that may raise a fault or branch -/

theorem ret_ignoresCompat : IgnoresCompat (exec .ret) := by
  intro ls sh s
  cases hstack : s.stack with
  | nil => exact answerWithCompat_of_next (exec_ret_nil hstack) (exec_ret_nil hstack)
  | cons a rest => exact answerWithCompat_of_next (exec_ret_cons hstack) (exec_ret_cons hstack)

theorem call_ignoresCompat (nnn : Addr12) : IgnoresCompat (exec (.call nnn)) := by
  intro ls sh s
  cases hfull : stackFull s.cfg.stackDepth s.stack.length with
  | true => exact answerWithCompat_of_next (exec_call_full hfull) (exec_call_full hfull)
  | false => exact answerWithCompat_of_next (exec_call_room hfull) (exec_call_room hfull)

theorem drw_ignoresCompat (x y : Reg) (n : Nibble) : IgnoresCompat (exec (.drw x y n)) := by
  intro ls sh s
  by_cases hin : SpriteInside s n
  · exact answerWithCompat_of_next (exec_drw_inside hin) (exec_drw_inside hin)
  · exact answerWithCompat_of_next (exec_drw_outside hin) (exec_drw_outside hin)

theorem ldB_ignoresCompat (x : Reg) : IgnoresCompat (execLdB x) := by
  intro ls sh s
  by_cases hin : s.i.toNat + 3 ≤ memSize
  · exact answerWithCompat_of_next (execLdB_inside x s hin) (execLdB_inside x _ hin)
  · exact answerWithCompat_of_next (execLdB_outside x s hin) (execLdB_outside x _ hin)

theorem skp_ignoresCompat (x : Reg) : IgnoresCompat (exec (.skp x)) := by
  intro ls sh s
  by_cases hx : (s.getV x).toNat < 16
  · exact answerWithCompat_of_skipIf (exec_skp_inside (k := ⟨_, hx⟩) rfl) (exec_skp_inside rfl)
  · exact answerWithCompat_of_next (exec_skp_outside hx) (exec_skp_outside hx)

theorem sknp_ignoresCompat (x : Reg) : IgnoresCompat (exec (.sknp x)) := by
  intro ls sh s
  by_cases hx : (s.getV x).toNat < 16
  · exact answerWithCompat_of_skipIf (exec_sknp_inside (k := ⟨_, hx⟩) rfl) (exec_sknp_inside rfl)
  · exact answerWithCompat_of_next (exec_sknp_outside hx) (exec_sknp_outside hx)

theorem ldVxK_ignoresCompat (x : Reg) : IgnoresCompat (execLdVxK x) := by
  intro ls sh s
  have hkw : (withCompat ls sh s).kw = s.kw := rfl
  have hkeys : (withCompat ls sh s).keys = s.keys := rfl
  unfold execLdVxK
  rw [hkw, hkeys]
  cases s.kw with
  | idle => cases lowestKey s.keys <;> rfl
  | waitingForRelease d => cases anyKey s.keys <;> rfl

/-! ## The statement -/

/-- Settles O52: what an instruction reads, and how it branches, is the same under any flags, but for the four that
read one; RND reads the drawn byte and its operands. -/
theorem compatFlagsAffectOnlyFourInstructions : Obligations.CompatFlagsAffectOnlyFourInstructions := by
  unfold Obligations.CompatFlagsAffectOnlyFourInstructions
  refine ⟨fun ls sh i s t hi h => ?_, fun ls sh r x kk s => rfl⟩
  suffices hsame : exec i (withCompat ls sh s) = answerWithCompat ls sh (exec i s) by
    rw [hsame, h]
    rfl
  cases i
  case shr | shl | ldMemVx | ldVxMem | rnd => exact hi.elim
  case ret => exact ret_ignoresCompat ls sh s
  case call nnn => exact call_ignoresCompat nnn ls sh s
  case drw x y n => exact drw_ignoresCompat x y n ls sh s
  case ldB x => exact ldB_ignoresCompat x ls sh s
  case skp x => exact skp_ignoresCompat x ls sh s
  case sknp x => exact sknp_ignoresCompat x ls sh s
  case ldVxK x => exact ldVxK_ignoresCompat x ls sh s
  case seImm | sneImm | seReg | sneReg => exact answerWithCompat_of_skipIf rfl rfl
  all_goals rfl

end Sys2Proof.Proofs
end
